-- ==== Sys2Proof/Word.lean ====
section
/-! DEFINITION. The two word types of PIE: the byte of pixel memory (00_scope.md R8, `CHAN_BITS = 8`) and the 32-bit
register and command word (00_scope.md R8, `REG_BITS = 32`). -/

namespace Sys2Proof

/-- One byte of pixel memory, an unsigned value 0 to 255 (20_memory.md R75). -/
abbrev Byte := BitVec 8

/-- A host-visible register or a command word, moved whole (20_memory.md R63, 30_encoding.md R90). -/
abbrev Word := BitVec 32

end Sys2Proof
end

