-- ==== Sys2Proof/Config.lean ====
section
/-! DEFINITION. What the spec leaves open, as constants without a body: nothing in Lean can evaluate them, so a theorem
that mentions one holds whatever its value is. -/

namespace Sys2Proof

/-- `PIXCAP`, the capacity of pixel memory in bytes (00_scope.md R8, 93_implementation_defined.md U7: OPEN, any natural
number). It is the capacity of `Machine.State.reset`; every other state carries its own (log 1; DESIGN CHOICE, safe). -/
opaque Config.pixcap : Nat

/-- What byte of pixel memory a read finds at an address that nothing has written since reset: a free value, drawn anew for
every draw number (93_implementation_defined.md U3, treatment "any value"; log 2; DESIGN CHOICE, safe).
First argument: the draw number, `Machine.State.draws`; second: the address. -/
opaque Config.unwrittenByte : Nat → Nat → Byte

end Sys2Proof
end

