-- ==== Sys2Proof/Syntax.lean ====
section
/-! DEFINITION. The eleven commands of PIE (00_scope.md R2, 30_encoding.md R96): one constructor per row of
spec/opcode_table.json. -/

namespace Sys2Proof

/-- The command set. Only `BRIGHT` and `THRESH` carry an operand, the signed immediate of 30_encoding.md R93; every other
operand is implicit (R91: the image in pixel memory, and for `CONV.CUSTOM` the kernel registers). -/
inductive Instr
  | neg
  | gray
  | bright (imm : Int)
  | thresh (imm : Int)
  | convBox
  | convGauss
  | convSharpen
  | convOutline
  | convEmboss
  | convCustom
  | equalize
  deriving DecidableEq, Repr

/-- The mnemonic of the command, as spec/opcode_table.json spells it. -/
def Instr.mnemonic : Instr → String
  | .neg => "NEG"
  | .gray => "GRAY"
  | .bright _ => "BRIGHT"
  | .thresh _ => "THRESH"
  | .convBox => "CONV.BOX"
  | .convGauss => "CONV.GAUSS"
  | .convSharpen => "CONV.SHARPEN"
  | .convOutline => "CONV.OUTLINE"
  | .convEmboss => "CONV.EMBOSS"
  | .convCustom => "CONV.CUSTOM"
  | .equalize => "EQUALIZE"

end Sys2Proof
end

