-- ==== Sys2Proof/WellFormed.lean ====
section
/-! DEFINITION. Which terms of `Instr` are commands of PIE: the immediate of `BRIGHT` and `THRESH` lies in
-32768..32767 (30_encoding.md R93, R99; log 10). -/

namespace Sys2Proof

/-- The range of the signed 16-bit immediate (30_encoding.md R93). -/
def immInRange (imm : Int) : Bool := decide (-32768 ≤ imm) && decide (imm ≤ 32767)

/-- A command that some command word encodes. -/
def Instr.wellFormed : Instr → Bool
  | .bright imm => immInRange imm
  | .thresh imm => immInRange imm
  | .neg => true
  | .gray => true
  | .convBox => true
  | .convGauss => true
  | .convSharpen => true
  | .convOutline => true
  | .convEmboss => true
  | .convCustom => true
  | .equalize => true

end Sys2Proof
end

