-- ==== Sys2Proof/Decode.lean ====
section
/-! DEFINITION. The command word: its fields (30_encoding.md R90), the total decoder (R92), the encoder and the opcode
table (R96). -/

namespace Sys2Proof

/-- Why a word is illegal (30_encoding.md R97). Every reason is the same error to the hardware, code 1 (60_exceptions.md
R230). -/
inductive Illegal
  /-- `OP = 0` or `OP ≥ 7`. -/
  | reservedOp
  /-- `OP = 5` with `KSEL ≥ 6`. -/
  | reservedKernel
  /-- A nonzero `KSEL` with `OP ≠ 5`. -/
  | strayKsel
  /-- A nonzero `RSV`. -/
  | strayRsv
  /-- A nonzero `IMM16` with `OP` neither 3 nor 4. -/
  | strayImm
  deriving DecidableEq, Repr

/-- What the decoder answers: a command, or a rejection by name. -/
inductive Decoded
  | instr (i : Instr)
  | illegal (why : Illegal)
  deriving DecidableEq, Repr

/-- `OP = w[3:0]` (30_encoding.md R90). -/
def Word.op (w : Word) : BitVec 4 := w.extractLsb' 0 4

/-- `KSEL = w[7:4]` (30_encoding.md R90). -/
def Word.ksel (w : Word) : BitVec 4 := w.extractLsb' 4 4

/-- `RSV = w[15:8]` (30_encoding.md R90). -/
def Word.rsv (w : Word) : BitVec 8 := w.extractLsb' 8 8

/-- `IMM16 = w[31:16]` (30_encoding.md R90). -/
def Word.imm16 (w : Word) : BitVec 16 := w.extractLsb' 16 16

/-- A command of `OP` 1, 2 or 6: `KSEL` and `IMM16` must be 0 (30_encoding.md R92). -/
def decodePlain (i : Instr) (w : Word) : Decoded :=
  if Word.ksel w ≠ 0 then .illegal .strayKsel
  else if Word.imm16 w ≠ 0 then .illegal .strayImm
  else .instr i

/-- A command of `OP` 3 or 4: `KSEL` must be 0, `IMM16` is the signed immediate (30_encoding.md R92, R93). -/
def decodeImmediate (mk : Int → Instr) (w : Word) : Decoded :=
  if Word.ksel w ≠ 0 then .illegal .strayKsel
  else .instr (mk (Word.imm16 w).toInt)

/-- The kernel that `KSEL` selects (30_encoding.md R95). -/
def kernelOf : Nat → Option Instr
  | 0 => some .convBox
  | 1 => some .convGauss
  | 2 => some .convSharpen
  | 3 => some .convOutline
  | 4 => some .convEmboss
  | 5 => some .convCustom
  | _ => none

/-- A command of `OP` 5: `IMM16` must be 0, `KSEL` in 0..5 (30_encoding.md R92, R95). -/
def decodeConv (w : Word) : Decoded :=
  if Word.imm16 w ≠ 0 then .illegal .strayImm
  else match kernelOf (Word.ksel w).toNat with
    | some i => .instr i
    | none => .illegal .reservedKernel

/-- The decoder (30_encoding.md R92, R94), total on the `2^32` words. -/
def decode (w : Word) : Decoded :=
  if Word.rsv w ≠ 0 then .illegal .strayRsv
  else match (Word.op w).toNat with
    | 1 => decodePlain .neg w
    | 2 => decodePlain .gray w
    | 3 => decodeImmediate .bright w
    | 4 => decodeImmediate .thresh w
    | 5 => decodeConv w
    | 6 => decodePlain .equalize w
    | _ => .illegal .reservedOp

/-- `legal(w)` of 60_exceptions.md R232. -/
def legal (w : Word) : Bool :=
  match decode w with
  | .instr _ => true
  | .illegal _ => false

/-- The word with the four fields of 30_encoding.md R90 and `RSV = 0`. -/
def fieldsWord (imm16 : BitVec 16) (ksel op : BitVec 4) : Word := imm16 ++ 0#8 ++ ksel ++ op

/-- The encoder (30_encoding.md R96; the immediate as R99 says, `IMM16 = imm mod 65536`). -/
def encode : Instr → Word
  | .neg => fieldsWord 0 0 1
  | .gray => fieldsWord 0 0 2
  | .bright imm => fieldsWord (BitVec.ofInt 16 imm) 0 3
  | .thresh imm => fieldsWord (BitVec.ofInt 16 imm) 0 4
  | .convBox => fieldsWord 0 0 5
  | .convGauss => fieldsWord 0 1 5
  | .convSharpen => fieldsWord 0 2 5
  | .convOutline => fieldsWord 0 3 5
  | .convEmboss => fieldsWord 0 4 5
  | .convCustom => fieldsWord 0 5 5
  | .equalize => fieldsWord 0 0 6

/-- One row of the opcode table (30_encoding.md R96): a word `w` is that command exactly when `w & mask = pattern`. -/
structure OpcodeRow where
  mnemonic : String
  mask : Word
  pattern : Word
  deriving DecidableEq, Repr

/-- The word `w` is the row's command (30_encoding.md R96). -/
def OpcodeRow.holds (r : OpcodeRow) (w : Word) : Bool := w &&& r.mask == r.pattern

/-- The complete table of commands, copied from 30_encoding.md R96. -/
def opcodeTable : List OpcodeRow :=
  [ ⟨"NEG", 0xFFFFFFFF, 0x00000001⟩,
    ⟨"GRAY", 0xFFFFFFFF, 0x00000002⟩,
    ⟨"BRIGHT", 0x0000FFFF, 0x00000003⟩,
    ⟨"THRESH", 0x0000FFFF, 0x00000004⟩,
    ⟨"CONV.BOX", 0xFFFFFFFF, 0x00000005⟩,
    ⟨"CONV.GAUSS", 0xFFFFFFFF, 0x00000015⟩,
    ⟨"CONV.SHARPEN", 0xFFFFFFFF, 0x00000025⟩,
    ⟨"CONV.OUTLINE", 0xFFFFFFFF, 0x00000035⟩,
    ⟨"CONV.EMBOSS", 0xFFFFFFFF, 0x00000045⟩,
    ⟨"CONV.CUSTOM", 0xFFFFFFFF, 0x00000055⟩,
    ⟨"EQUALIZE", 0xFFFFFFFF, 0x00000006⟩ ]

/-- The command word made of the low `nbits` bits of `w`, the bits above them 0. -/
def tableWord (nbits w : Nat) : Word := BitVec.ofNat 32 (w % 2 ^ nbits)

/-- The instruction the decoder reads from a table word. A command word is one 32-bit value moved whole, so its bits are
numbered as the table numbers them and there is no byte order to apply (20_memory.md R63). More than 32 bits are no command
word (30_encoding.md R98). -/
def decodeTableWord (nbits w : Nat) : Option Instr :=
  if nbits ≤ 32 then
    match decode (tableWord nbits w) with
    | .instr i => some i
    | .illegal _ => none
  else none

end Sys2Proof
end

