-- ==== Sys2Proof/Machine/State.lean ====
section
/-! DEFINITION. The state of PIE (10_state.md, 00_scope.md R14 and R15), the reasons a step can stop, and reset
(70_reset_and_hazards.md R260). Every type here is plain data. -/

namespace Sys2Proof.Machine

/-- Why the machine stops with a fault. -/
inductive Fault
  /-- A host access other than a read of `STATUS` (or a reset) inside the busy window: undefined, the spec asks the model to
  fault it (70_reset_and_hazards.md R266, 93_implementation_defined.md U1). Raised by every such host access; safe. -/
  | busyWindow
  deriving DecidableEq, Repr

/-- Why the machine gives an input no meaning. -/
inductive Refusal
  /-- A command without a meaning yet. Raised by no arm of `exec` now; safe. -/
  | notModelled (mnemonic : String)
  /-- A register access at an offset that is not a multiple of 4 or not below 0x1000: outside the address space, the spec asks
  the model to refuse it (20_memory.md R65, 93_implementation_defined.md U5). Raised by `RegRead` and `RegWrite`; safe. -/
  | noSuchRegister (off : Nat)
  /-- A pixel access at an address at or above `PIXCAP`: outside the address space, the spec asks the model to refuse it
  (20_memory.md R64, 93_implementation_defined.md U5). Raised by `PixRead` and `PixWrite`; safe. -/
  | noSuchPixel (a : Nat)
  deriving DecidableEq, Repr

/-- The five error causes (60_exceptions.md R230). -/
inductive ErrCode
  | illegal
  | mode
  | size
  | kside
  | kdiv
  deriving DecidableEq, Repr

/-- The two agents (00_scope.md R14). -/
inductive Agent
  | host
  | engine
  deriving DecidableEq, Repr

/-- One access of the host: the four primitives of 20_memory.md R60 and R61, the polling loop `WAIT` of 30_encoding.md R100,
and the platform's reset (70_reset_and_hazards.md R260, R269). -/
inductive HostOp
  | regRead (off : Nat)
  | regWrite (off : Nat) (v : Word)
  | pixRead (a : Nat)
  | pixWrite (a : Nat) (b : Byte)
  | wait
  | reset
  deriving DecidableEq, Repr

/-- A value a port has answered to the host (log 12). -/
inductive Answer
  | reg (off : Nat) (v : Word)
  | pix (a : Nat) (b : Byte)
  deriving DecidableEq, Repr

/-- The fields of `STATUS` (10_state.md R24); its other bits are hardwired 0. -/
structure Status where
  busy : Bool
  done : Bool
  err : Bool
  errCode : BitVec 4
  deriving DecidableEq, Repr

/-- The bytes of pixel memory written since reset, as (address, byte) pairs with strictly rising addresses; an address that is
not listed holds no value the spec gives (10_state.md R37, R39; log 17). -/
abbrev Memory := List Host.Cell

/-- The state of the machine. `cmd` to `windowOpen` are the spec's (10_state.md R22, R37, R30; the window is the ghost flag of
70_reset_and_hazards.md R266); `pixcap` is its configuration parameter (log 1); `script`, `turns`, `answers` and `draws` are the
model's own (log 3, 4, 12, 2). Registers hold their assigned bits only; the bits the map does not assign are hardwired 0. -/
structure State where
  /-- `PIXCAP` (00_scope.md R8). No step changes it. -/
  pixcap : Nat
  /-- `CMD`, the last word written (10_state.md R23). -/
  cmd : Word
  /-- `STATUS` (10_state.md R24). -/
  status : Status
  /-- `WIDTH[15:0]` (10_state.md R25). -/
  width : BitVec 16
  /-- `HEIGHT[15:0]` (10_state.md R26). -/
  height : BitVec 16
  /-- `FMT[0]` (10_state.md R27). -/
  fmt : BitVec 1
  /-- `KSIDE[2:0]` (10_state.md R28). -/
  kside : BitVec 3
  /-- `KDIV[15:0]` (10_state.md R29). -/
  kdiv : BitVec 16
  /-- `KCOEF[0..24][15:0]` (10_state.md R32). -/
  kcoef : Vector (BitVec 16) 25
  /-- `HIST[0..255]` (10_state.md R34). -/
  hist : Vector Word 256
  /-- `CDF[0..255]` (10_state.md R35). -/
  cdf : Vector Word 256
  /-- `LUT[0..255][7:0]` (10_state.md R36). -/
  lut : Vector Byte 256
  /-- `PIX` (10_state.md R37). -/
  mem : Memory
  /-- The command the engine holds in flight (10_state.md R30, R31). -/
  inFlight : Option Instr
  /-- The busy window is open: a command was accepted and the host has not yet read `STATUS` with `BUSY = 0`
  (70_reset_and_hazards.md R266). -/
  windowOpen : Bool
  /-- The host's pending accesses, the next one first (30_encoding.md R99). -/
  script : List HostOp
  /-- Who moves next while a command is in flight; an empty list lets the engine move (70_reset_and_hazards.md R268). -/
  turns : List Agent
  /-- What the ports have answered, newest first. -/
  answers : List Answer
  /-- The number of the next free draw of unwritten bytes (93_implementation_defined.md U3). -/
  draws : Nat
  deriving DecidableEq, Repr

/-- `STATUS = 0`: not busy, not done, no error (10_state.md R39). -/
def Status.idle : Status := ⟨false, false, false, 0⟩

/-- The machine right after reset with a pixel memory of `cap` bytes (10_state.md R39, 70_reset_and_hazards.md R260): every
register 0, nothing in flight, no byte of pixel memory written. The host has no access pending (log 3). -/
def State.resetWith (cap : Nat) : State where
  pixcap := cap
  cmd := 0
  status := Status.idle
  width := 0
  height := 0
  fmt := 0
  kside := 0
  kdiv := 0
  kcoef := Vector.replicate 25 0
  hist := Vector.replicate 256 0
  cdf := Vector.replicate 256 0
  lut := Vector.replicate 256 0
  mem := []
  inFlight := none
  windowOpen := false
  script := []
  turns := []
  answers := []
  draws := 0

/-- The machine right after reset; its capacity is the open parameter `Config.pixcap` (log 1). -/
def State.reset : State := State.resetWith Config.pixcap

end Sys2Proof.Machine
end

