-- ==== Sys2Proof/Machine/Flags.lean ====
section
/-! DEFINITION. The only flags of PIE, the fields of `STATUS` (10_state.md R24, R40): their values after each event and the
word a read returns. There are no condition codes and no arithmetic flags (R40). -/

namespace Sys2Proof.Machine

/-- The number of an error cause (60_exceptions.md R230). -/
def ErrCode.code : ErrCode → BitVec 4
  | .illegal => 1
  | .mode => 2
  | .size => 3
  | .kside => 4
  | .kdiv => 5

/-- `STATUS` after the issue of an accepted command (10_state.md R30 (4)). -/
def Status.inFlight : Status := ⟨true, false, false, 0⟩

/-- `STATUS` after completion (10_state.md R31): `DONE`. -/
def Status.completed : Status := ⟨false, true, false, 0⟩

/-- `STATUS` after a rejection (60_exceptions.md R231). -/
def Status.rejected (k : ErrCode) : Status := ⟨false, false, true, k.code⟩

/-- One bit of `STATUS`. -/
def flag (b : Bool) : BitVec 1 := if b then 1 else 0

/-- `STATUS` as a read returns it: `BUSY` bit 0, `DONE` bit 1, `ERR` bit 2, bit 3 zero, `ERRCODE` bits 7:4, bits 31:8 zero
(10_state.md R24). -/
def Status.word (st : Status) : Word :=
  0#24 ++ st.errCode ++ 0#1 ++ flag st.err ++ flag st.done ++ flag st.busy

end Sys2Proof.Machine
end

