-- ==== Sys2Proof/Machine/Arith.lean ====
section
/-! DEFINITION. The arithmetic primitives of every command rule (00_scope.md R11), on unbounded integers (R9). -/

namespace Sys2Proof.Machine

/-- `clamp(v)`: 0 below 0, 255 above 255, else `v` (00_scope.md R11). -/
def clamp (v : Int) : Int := if v < 0 then 0 else if 255 < v then 255 else v

/-- `rhu(n, d) = (2*n + d) div (2*d)`: `n/d` rounded to nearest, ties toward plus infinity; `div` is the floor quotient
(00_scope.md R11, for `d > 0`). -/
def rhu (n d : Int) : Int := (2 * n + d) / (2 * d)

/-- A value that lies in 0..255, as a byte. -/
def byteOf (v : Int) : Byte := BitVec.ofInt 8 v

/-- `clamp(v)` as a byte (20_memory.md R75: every command clamps or maps its result into 0..255 before the write). -/
def clampByte (v : Int) : Byte := byteOf (clamp v)

/-- A byte as the integer 0..255 it holds. -/
def byteVal (b : Byte) : Int := b.toNat

end Sys2Proof.Machine
end

