-- ==== Sys2Proof/Machine/Memory.lean ====
section
/-! DEFINITION. Pixel memory as a list of written bytes in one canonical form: strictly rising addresses (log 17). -/

namespace Sys2Proof.Machine

/-- The byte written at `a`, or `none` where nothing has written since reset. -/
def Memory.read : Memory → Nat → Option Byte
  | [], _ => none
  | (k, b) :: m, a => if a = k then some b else Memory.read m a

/-- `PIX[a] <- b` (00_scope.md R10). -/
def Memory.write : Memory → Nat → Byte → Memory
  | [], a, b => [(a, b)]
  | (k, c) :: m, a, b =>
    if a < k then (a, b) :: (k, c) :: m
    else if a = k then (k, b) :: m
    else (k, c) :: Memory.write m a b

/-- Stores of several bytes, the first of the list first. -/
def Memory.writeAll (m : Memory) (cells : List Host.Cell) : Memory :=
  cells.foldl (fun acc c => Memory.write acc c.1 c.2) m

/-- Every address of the list is at least `lo`, and each is above the one before it. -/
def Memory.risingFrom : Nat → Memory → Bool
  | _, [] => true
  | lo, (k, _) :: m => decide (lo ≤ k) && Memory.risingFrom (k + 1) m

/-- The canonical form: strictly rising addresses. An unlisted address reads as no value, so no entry can equal what an
unlisted address reads as. -/
def Memory.wf (m : Memory) : Bool := Memory.risingFrom 0 m

/-- Every listed address is below `cap`. -/
def Memory.below (cap : Nat) (m : Memory) : Bool := m.all fun c => decide (c.1 < cap)

end Sys2Proof.Machine
end

