-- ==== Sys2Proof/Machine/Operands.lean ====
section
/-! DEFINITION. The implicit operands of a command: the image in the active region (00_scope.md R12, 20_memory.md R62, R75) and
the kernel (41_convolution.md R141, R142, 10_state.md R32). The explicit operand, the signed immediate, is in the command
itself (30_encoding.md R93). -/

namespace Sys2Proof.Machine

/-- The two pixel representations (10_state.md R27). -/
inductive Format
  | gray8
  | rgb24
  deriving DecidableEq, Repr

/-- Bytes of a pixel (00_scope.md R12). -/
def Format.bpp : Format → Nat
  | .gray8 => 1
  | .rgb24 => 3

/-- The image's format, from `F = FMT[0]` (10_state.md R27). -/
def State.format (s : State) : Format := if s.fmt = 0 then .gray8 else .rgb24

/-- `W` (00_scope.md R12). -/
def State.imgW (s : State) : Nat := s.width.toNat

/-- `H` (00_scope.md R12). -/
def State.imgH (s : State) : Nat := s.height.toNat

/-- `bpp` (00_scope.md R12). -/
def State.bpp (s : State) : Nat := s.format.bpp

/-- `NPIX = W*H` (00_scope.md R12). -/
def State.nPix (s : State) : Nat := s.imgW * s.imgH

/-- `NBYTES = NPIX*bpp` (00_scope.md R12): the active region is the addresses below it. -/
def State.nBytes (s : State) : Nat := s.nPix * s.bpp

/-- `addr(x, y, c) = (y*W + x)*bpp + c` (20_memory.md R62). -/
def State.addr (s : State) (x y c : Nat) : Nat := (y * s.imgW + x) * s.bpp + c

/-- The pixels `(x, y)` of a `w` by `h` image, row by row (00_scope.md R12). -/
def coords (w h : Nat) : List (Nat × Nat) :=
  (List.range h).flatMap fun y => (List.range w).map fun x => (x, y)

/-- The pixels of the image in the active region. -/
def State.pixels (s : State) : List (Nat × Nat) := coords s.imgW s.imgH

/-- `PIX[a]`: the byte written at `a`, or a free value where nothing has written since reset (00_scope.md R10,
93_implementation_defined.md U3; log 2). -/
def State.pix (s : State) (a : Nat) : Byte := (s.mem.read a).getD (Config.unwrittenByte s.draws a)

/-- The bytes of a colour pixel in address order (20_memory.md R62, R75). -/
structure Rgb where
  r : Byte
  g : Byte
  b : Byte
  deriving DecidableEq, Repr

/-- `MemRead(addr(x, y, 0), 3)` (20_memory.md R75). -/
def State.rgb (s : State) (x y : Nat) : Rgb where
  r := s.pix (s.addr x y 0)
  g := s.pix (s.addr x y 1)
  b := s.pix (s.addr x y 2)

/-- The cells of `MemWrite(addr(x, y, 0), 3, [r, g, b])` (20_memory.md R75). -/
def State.rgbCells (s : State) (x y : Nat) (p : Rgb) : List Host.Cell :=
  [(s.addr x y 0, p.r), (s.addr x y 1, p.g), (s.addr x y 2, p.b)]

/-- A kernel: a triple `(side, K, div)` with `K` dense and row-major (41_convolution.md R141). -/
structure Kernel where
  side : Nat
  coeffs : List Int
  div : Nat
  deriving DecidableEq, Repr

/-- `half = (side - 1) div 2` (41_convolution.md R141). -/
def Kernel.half (k : Kernel) : Nat := (k.side - 1) / 2

/-- `K[r][q]`, row `r`, column `q` (41_convolution.md R141). -/
def Kernel.weight (k : Kernel) (r q : Nat) : Int := k.coeffs.getD (r * k.side + q) 0

/-- `BOX` (41_convolution.md R142). -/
def boxKernel : Kernel := ⟨3, [1, 1, 1, 1, 1, 1, 1, 1, 1], 9⟩

/-- `GAUSS` (41_convolution.md R142). -/
def gaussKernel : Kernel := ⟨3, [1, 2, 1, 2, 4, 2, 1, 2, 1], 16⟩

/-- `SHARPEN` (41_convolution.md R142). -/
def sharpenKernel : Kernel := ⟨3, [0, -1, 0, -1, 5, -1, 0, -1, 0], 1⟩

/-- `OUTLINE` (41_convolution.md R142). -/
def outlineKernel : Kernel := ⟨3, [-1, -1, -1, -1, 8, -1, -1, -1, -1], 1⟩

/-- `EMBOSS`, its rows exactly as printed (41_convolution.md R142). -/
def embossKernel : Kernel := ⟨3, [-1, 1, 1, -2, -1, 0, 0, 1, 2], 1⟩

/-- `sext_16(KCOEF[i][15:0])` (10_state.md R32); 0 where there is no register `i` (reached only with `KSIDE = 7`, which no
accepted command has; log 9). -/
def State.coef (s : State) (i : Nat) : Int := ((s.kcoef[i]?).getD 0).toInt

/-- The host-supplied kernel held in `KSIDE`, `KCOEF`, `KDIV` (10_state.md R28, R29, R32, 41_convolution.md R152). -/
def State.customKernel (s : State) : Kernel where
  side := s.kside.toNat
  coeffs := (List.range (s.kside.toNat * s.kside.toNat)).map s.coef
  div := s.kdiv.toNat

end Sys2Proof.Machine
end

