-- ==== Sys2Proof/Machine/Ops.lean ====
section
/-! DEFINITION. The shared operations: storing bytes, the checks at issue (60_exceptions.md R232), rejection (R231, the
hardware's one exception mechanism; there is no return from it, R235), acceptance and completion (10_state.md R30, R31). -/

namespace Sys2Proof.Machine

/-- Store the cells into pixel memory, the first of the list first. -/
def State.store (s : State) (cells : List Host.Cell) : State := { s with mem := s.mem.writeAll cells }

/-- Rejection with code `k` (60_exceptions.md R231): only `STATUS` changes. -/
def State.reject (s : State) (k : ErrCode) : State := { s with status := Status.rejected k }

/-- Acceptance of command `i` (10_state.md R30 (4)): the engine holds it in flight and the busy window opens
(70_reset_and_hazards.md R266). -/
def State.accept (s : State) (i : Instr) : State :=
  { s with status := Status.inFlight, inFlight := some i, windowOpen := true }

/-- The end of the completion step (10_state.md R31). The next read of an unwritten byte is a new free draw (log 2). -/
def State.complete (s : State) : State :=
  { s with status := Status.completed, inFlight := none, draws := s.draws + 1 }

/-- The format restriction of `GRAY` and `THRESH` (60_exceptions.md R232, check 2): true where the command is not defined for
the format. -/
def wrongFormat : Instr → Format → Bool
  | .gray, .gray8 => true
  | .thresh _, .rgb24 => true
  | _, _ => false

/-- Checks 4 and 5 of 60_exceptions.md R232, made for `CONV.CUSTOM` only. -/
def State.kernelError (s : State) : Option ErrCode :=
  if s.kside = 7 then some .kside
  else if (s.kside = 1 ∨ s.kside = 3 ∨ s.kside = 5) ∧ s.kdiv = 0 then some .kdiv
  else none

/-- The checks at issue of a legal command in the order of their codes (60_exceptions.md R232, checks 2 to 5); `none` accepts.
Check 1, legality of the word, is made where the word is decoded (`issue`). -/
def State.check (s : State) (i : Instr) : Option ErrCode :=
  if wrongFormat i s.format then some .mode
  else if s.nBytes > s.pixcap then some .size
  else if i = .convCustom then s.kernelError
  else none

/-- The life of a command (00_scope.md R13, 10_state.md R30 and R31): with no command in flight this is its issue, the checks and
then rejection or acceptance; with a command in flight it is its completion, the whole `effect` in one step (log 7). -/
def command (i : Instr) (effect : State → State) (s : State) : Host.Outcome State Fault Refusal :=
  match s.inFlight with
  | some _ => .next (effect s).complete
  | none =>
    match s.check i with
    | some k => .next (s.reject k)
    | none => .next (s.accept i)

end Sys2Proof.Machine
end

