-- ==== Sys2Proof/Machine/Convolution.lean ====
section
/-! DEFINITION. The convolution commands `CONV.*` (41_convolution.md): one generic operation and six bindings. -/

namespace Sys2Proof.Machine

/-- One tap: the weight at row `r`, column `q` times the byte at `(x + kx, y + ky)`, `ky = r - half`, `kx = q - half`; 0 where
the position is outside the image (41_convolution.md R143, R144). -/
def State.tap (s : State) (k : Kernel) (x y c r q : Nat) : Int :=
  let u : Int := (x : Int) + ((q : Int) - k.half)
  let v : Int := (y : Int) + ((r : Int) - k.half)
  if 0 ≤ u ∧ u < s.imgW ∧ 0 ≤ v ∧ v < s.imgH then
    k.weight r q * byteVal (s.pix (s.addr u.toNat v.toNat c))
  else 0

/-- `S(x, y, c)`, the sum of the taps (41_convolution.md R143). -/
def State.tapSum (s : State) (k : Kernel) (x y c : Nat) : Int :=
  ((List.range k.side).map fun r => ((List.range k.side).map fun q => s.tap k x y c r q).sum).sum

/-- `out(x, y, c) = clamp(rhu(S(x, y, c), div))` (41_convolution.md R153). -/
def State.convOut (s : State) (k : Kernel) (x y c : Nat) : Byte := clampByte (rhu (s.tapSum k x y c) k.div)

/-- The border width `b`: `half` for `GRAY8`, 1 for `RGB24` whatever the side (41_convolution.md R145). -/
def State.border (s : State) (k : Kernel) : Nat :=
  match s.format with
  | .gray8 => k.half
  | .rgb24 => 1

/-- The coordinate `i` lies in `b .. n-1-b` (41_convolution.md R145). -/
def insideBorder (b n i : Nat) : Bool := decide (b ≤ i) && decide (i + b < n)

/-- The pixels of the write region, row by row (41_convolution.md R145). -/
def State.writeRegion (s : State) (k : Kernel) : List (Nat × Nat) :=
  s.pixels.filter fun p => insideBorder (s.border k) s.imgW p.1 && insideBorder (s.border k) s.imgH p.2

/-- The scratch buffer: every new value of the write region, computed from the image as it was (41_convolution.md R146,
10_state.md R33: a local of the completion step). -/
def State.convNew (s : State) (k : Kernel) : List Host.Cell :=
  (s.writeRegion k).flatMap fun p =>
    (List.range s.bpp).map fun c => (s.addr p.1 p.2 c, s.convOut k p.1 p.2 c)

/-- `Convolve(side, K, div)`: all new values first, then the copy (41_convolution.md R140, R146). -/
def State.convolve (k : Kernel) (s : State) : State := s.store (s.convNew k)

/-- The effect of `CONV.CUSTOM`: nothing for an even `KSIDE`, else the host-supplied kernel (41_convolution.md R152). -/
def State.convolveCustom (s : State) : State :=
  if s.kside.toNat % 2 = 0 then s else State.convolve s.customKernel s

/-- `CONV.BOX` (41_convolution.md R147). -/
def execConvBox (s : State) : Host.Outcome State Fault Refusal :=
  command .convBox (State.convolve boxKernel) s

/-- `CONV.GAUSS` (41_convolution.md R148). -/
def execConvGauss (s : State) : Host.Outcome State Fault Refusal :=
  command .convGauss (State.convolve gaussKernel) s

/-- `CONV.SHARPEN` (41_convolution.md R149). -/
def execConvSharpen (s : State) : Host.Outcome State Fault Refusal :=
  command .convSharpen (State.convolve sharpenKernel) s

/-- `CONV.OUTLINE` (41_convolution.md R150). -/
def execConvOutline (s : State) : Host.Outcome State Fault Refusal :=
  command .convOutline (State.convolve outlineKernel) s

/-- `CONV.EMBOSS` (41_convolution.md R151). -/
def execConvEmboss (s : State) : Host.Outcome State Fault Refusal :=
  command .convEmboss (State.convolve embossKernel) s

/-- `CONV.CUSTOM` (41_convolution.md R152). -/
def execConvCustom (s : State) : Host.Outcome State Fault Refusal :=
  command .convCustom State.convolveCustom s

end Sys2Proof.Machine
end

