-- ==== Sys2Proof/Machine/Equalize.lean ====
section
/-! DEFINITION. `EQUALIZE` (42_equalize.md): histogram, cumulative distribution, look-up table, colour-space transform. -/

namespace Sys2Proof.Machine

/-- Luminance and chrominance scaled by `10^5` (42_equalize.md R173). -/
structure Yuv where
  y5 : Int
  u5 : Int
  v5 : Int
  deriving DecidableEq, Repr

/-- `Forward(R, G, B)` (42_equalize.md R173). -/
def forward (p : Rgb) : Yuv where
  y5 := 29900 * byteVal p.r + 58700 * byteVal p.g + 11400 * byteVal p.b
  u5 := -14713 * byteVal p.r - 28886 * byteVal p.g + 43600 * byteVal p.b
  v5 := 61500 * byteVal p.r - 51499 * byteVal p.g - 10001 * byteVal p.b

/-- The rounded luminance `Yr = (Y5 + 50000) div 100000` (42_equalize.md R173). -/
def roundedLuma (p : Rgb) : Nat := (((forward p).y5 + 50000) / 100000).toNat

/-- `E = 10^10`, the product of the two scales (42_equalize.md R174). -/
def chromaScale : Int := 10000000000

/-- `Inverse(Ym, U5, V5)` (42_equalize.md R174). -/
def inverse (ym : Byte) (u5 v5 : Int) : Rgb where
  r := clampByte (rhu (byteVal ym * chromaScale + 113983 * v5) chromaScale)
  g := clampByte (rhu (byteVal ym * chromaScale - 39465 * u5 - 58060 * v5) chromaScale)
  b := clampByte (rhu (byteVal ym * chromaScale + 203211 * u5) chromaScale)

/-- `I(x, y)`: the byte of a `GRAY8` pixel, the rounded luminance of an `RGB24` pixel (42_equalize.md R170, stage 1). -/
def State.intensity (s : State) (x y : Nat) : Nat :=
  match s.format with
  | .gray8 => (s.pix (s.addr x y 0)).toNat
  | .rgb24 => roundedLuma (s.rgb x y)

/-- The intensities of all pixels of the image. -/
def State.intensities (s : State) : List Nat := s.pixels.map fun p => s.intensity p.1 p.2

/-- How many pixels have each of the intensities 0..255 (42_equalize.md R171). -/
def histogram (is : List Nat) : List Nat := (List.range 256).map fun i => is.count i

/-- Running sums: each entry is the one before it plus the histogram's (42_equalize.md R171). -/
def cumulate : Nat → List Nat → List Nat
  | _, [] => []
  | acc, h :: t => (acc + h) :: cumulate (acc + h) t

/-- The new `HIST` as numbers. -/
def State.newHist (s : State) : List Nat := histogram s.intensities

/-- The new `CDF` as numbers. -/
def State.newCdf (s : State) : List Nat := cumulate 0 s.newHist

/-- `N = CDF[255]` (42_equalize.md R171). -/
def State.cdfTotal (s : State) : Nat := s.newCdf.getD 255 0

/-- `cmin`, the smallest nonzero entry: `CDF[j]` for the least `j` with `CDF[j] > 0`; 0 where there is none
(42_equalize.md R170 stage 3, R171). -/
def State.cdfMin (s : State) : Nat := (s.newCdf.find? fun c => decide (0 < c)).getD 0

/-- The degenerate case: `N = 0` or `N = cmin` (42_equalize.md R175). -/
def State.degenerate (s : State) : Bool := s.cdfTotal == 0 || s.cdfTotal == s.cdfMin

/-- `LUT[i]` of a command that is not degenerate (42_equalize.md R172). -/
def State.newLut (s : State) (i : Nat) : Byte :=
  if 0 < s.newCdf.getD i 0 then
    byteOf (rhu (255 * ((s.newCdf.getD i 0 : Int) - s.cdfMin)) ((s.cdfTotal : Int) - s.cdfMin))
  else 0

/-- The cells of one pixel's new value (42_equalize.md R176, R177). -/
def State.equalizedCells (s : State) (x y : Nat) : List Host.Cell :=
  match s.format with
  | .gray8 => [(s.addr x y 0, s.newLut (s.intensity x y))]
  | .rgb24 =>
    s.rgbCells x y
      (inverse (s.newLut (s.intensity x y)) (forward (s.rgb x y)).u5 (forward (s.rgb x y)).v5)

/-- 256 counts as the 32-bit registers `HIST` or `CDF`; a count never exceeds 32 bits (10_state.md R34). -/
@[irreducible] def wordTable (l : List Nat) : Vector Word 256 := Vector.ofFn fun i => BitVec.ofNat 32 (l.getD i.val 0)

/-- 256 bytes as the registers `LUT` (10_state.md R36). -/
@[irreducible] def byteTable (f : Nat → Byte) : Vector Byte 256 := Vector.ofFn fun i => f i.val

/-- `HIST` and `CDF` written (42_equalize.md R171). -/
def State.setHistCdf (s : State) (hist cdf : List Nat) : State :=
  { s with hist := wordTable hist, cdf := wordTable cdf }

/-- `LUT` written (42_equalize.md R172). -/
def State.setLut (s : State) (f : Nat → Byte) : State := { s with lut := byteTable f }

/-- The five stages of `EQUALIZE`, all on the image as it was (42_equalize.md R170). -/
def State.equalize (s : State) : State :=
  if s.degenerate then s.setHistCdf s.newHist s.newCdf
  else
    ((s.setHistCdf s.newHist s.newCdf).setLut s.newLut).store
      (s.pixels.flatMap fun p => s.equalizedCells p.1 p.2)

/-- `EQUALIZE` (42_equalize.md R170). -/
def execEqualize (s : State) : Host.Outcome State Fault Refusal :=
  command .equalize State.equalize s

end Sys2Proof.Machine
end

