-- ==== Sys2Proof/Machine/PointOps.lean ====
section
/-! DEFINITION. The point operations `NEG`, `GRAY`, `BRIGHT`, `THRESH` (40_point_ops.md). -/

namespace Sys2Proof.Machine

/-- Replace every byte of the active region by `f` of itself (40_point_ops.md R120, R126: independent 8-bit lanes). -/
def State.mapBytes (f : Byte → Byte) (s : State) : State :=
  s.store ((List.range s.nBytes).map fun a => (a, f (s.pix a)))

/-- Replace every pixel of a colour image by `f` of itself (40_point_ops.md R126: independent 3-byte pixels). -/
def State.mapPixels (f : Rgb → Rgb) (s : State) : State :=
  s.store (s.pixels.flatMap fun p => s.rgbCells p.1 p.2 (f (s.rgb p.1 p.2)))

/-- `255 - v` (40_point_ops.md R121). -/
def negByte (v : Byte) : Byte := 255 - v

/-- The three channels set to `(R + G + B) div 3` (40_point_ops.md R122). -/
def grayPixel (p : Rgb) : Rgb :=
  let m := byteOf ((byteVal p.r + byteVal p.g + byteVal p.b) / 3)
  ⟨m, m, m⟩

/-- `clamp(v + imm)` (40_point_ops.md R123). -/
def brightByte (imm : Int) (v : Byte) : Byte := clampByte (byteVal v + imm)

/-- 255 if `v ≥ imm`, else 0 (40_point_ops.md R124). -/
def threshByte (imm : Int) (v : Byte) : Byte := if byteVal v ≥ imm then 255 else 0

/-- `NEG` (40_point_ops.md R121). -/
def execNeg (s : State) : Host.Outcome State Fault Refusal :=
  command .neg (State.mapBytes negByte) s

/-- `GRAY` (40_point_ops.md R122). -/
def execGray (s : State) : Host.Outcome State Fault Refusal :=
  command .gray (State.mapPixels grayPixel) s

/-- `BRIGHT imm` (40_point_ops.md R123). -/
def execBright (imm : Int) (s : State) : Host.Outcome State Fault Refusal :=
  command (.bright imm) (State.mapBytes (brightByte imm)) s

/-- `THRESH imm` (40_point_ops.md R124). -/
def execThresh (imm : Int) (s : State) : Host.Outcome State Fault Refusal :=
  command (.thresh imm) (State.mapBytes (threshByte imm)) s

end Sys2Proof.Machine
end

