-- ==== Sys2Proof/Machine/Dispatch.lean ====
section
/-! DEFINITION. The one match from a command to its meaning. -/

namespace Sys2Proof.Machine

def exec (i : Instr) (s : State) : Host.Outcome State Fault Refusal :=
  match i with
  | .neg => Sys2Proof.Machine.execNeg s
  | .gray => Sys2Proof.Machine.execGray s
  | .bright imm => Sys2Proof.Machine.execBright imm s
  | .thresh imm => Sys2Proof.Machine.execThresh imm s
  | .convBox => Sys2Proof.Machine.execConvBox s
  | .convGauss => Sys2Proof.Machine.execConvGauss s
  | .convSharpen => Sys2Proof.Machine.execConvSharpen s
  | .convOutline => Sys2Proof.Machine.execConvOutline s
  | .convEmboss => Sys2Proof.Machine.execConvEmboss s
  | .convCustom => Sys2Proof.Machine.execConvCustom s
  | .equalize => Sys2Proof.Machine.execEqualize s

end Sys2Proof.Machine
end

