-- ==== Sys2Proof/Machine/HostPort.lean ====
section
/-! DEFINITION. The host port (10_state.md R22 to R38, 20_memory.md R60 to R66): register and pixel accesses, the issue of a
command, polling, reset. -/

namespace Sys2Proof.Machine

/-- The offsets of the `REG` address space: multiples of 4 below 0x1000 (20_memory.md R60, R65). -/
def registerOffset (off : Nat) : Bool := off % 4 == 0 && decide (off < 0x1000)

/-- The word a read of the register at `off` returns: the register map of 10_state.md R22, unassigned bits 0, reserved offsets
0 (R38). -/
def State.regValue (s : State) (off : Nat) : Word :=
  if off = 0x000 then s.cmd
  else if off = 0x004 then s.status.word
  else if off = 0x008 then s.width.setWidth 32
  else if off = 0x00C then s.height.setWidth 32
  else if off = 0x010 then s.fmt.setWidth 32
  else if off = 0x014 then s.kside.setWidth 32
  else if off = 0x018 then s.kdiv.setWidth 32
  else if 0x040 ≤ off ∧ off < 0x0A4 then ((s.kcoef[(off - 0x040) / 4]?).getD 0).setWidth 32
  else if 0x400 ≤ off ∧ off < 0x800 then (s.hist[(off - 0x400) / 4]?).getD 0
  else if 0x800 ≤ off ∧ off < 0xC00 then (s.cdf[(off - 0x800) / 4]?).getD 0
  else if 0xC00 ≤ off ∧ off < 0x1000 then ((s.lut[(off - 0xC00) / 4]?).getD 0).setWidth 32
  else 0

/-- A write of `v` to a register other than `CMD`: the assigned bits of a writable register are stored (10_state.md R25 to R29,
R32); read-only registers and reserved offsets ignore it (R22, R38). -/
def State.writeReg (s : State) (off : Nat) (v : Word) : State :=
  if off = 0x008 then { s with width := v.setWidth 16 }
  else if off = 0x00C then { s with height := v.setWidth 16 }
  else if off = 0x010 then { s with fmt := v.setWidth 1 }
  else if off = 0x014 then { s with kside := v.setWidth 3 }
  else if off = 0x018 then { s with kdiv := v.setWidth 16 }
  else if 0x040 ≤ off ∧ off < 0x0A4 then
    { s with kcoef := s.kcoef.setIfInBounds ((off - 0x040) / 4) (v.setWidth 16) }
  else s

/-- `CMD` stores the word (10_state.md R30 (1)). -/
def State.setCmd (s : State) (w : Word) : State := { s with cmd := w }

/-- A value answered to the host (log 12). -/
def State.answer (s : State) (a : Answer) : State := { s with answers := a :: s.answers }

/-- The issue of a command word (10_state.md R30): store it, decode it, and reject an illegal one with code 1
(60_exceptions.md R232, check 1) or run the command's own checks. -/
def issue (w : Word) (s : State) : Host.Outcome State Fault Refusal :=
  match decode w with
  | .illegal _ => .next ((s.setCmd w).reject .illegal)
  | .instr i => exec i (s.setCmd w)

/-- `RegRead(off)` answers the register's value; a read of `STATUS` that returns `BUSY = 0` closes the busy window
(70_reset_and_hazards.md R266). -/
def State.readReg (s : State) (off : Nat) : State :=
  let t := s.answer (.reg off (s.regValue off))
  if off = 0x004 then { t with windowOpen := s.windowOpen && s.status.busy } else t

/-- `PixRead(a)` answers the byte; the next read of an unwritten byte is a new free draw (20_memory.md R61, log 2). -/
def State.readPix (s : State) (a : Nat) : State :=
  { s.answer (.pix a (s.pix a)) with draws := s.draws + 1 }

/-- `PixWrite(a, b)` (20_memory.md R61). -/
def State.writePix (s : State) (a : Nat) (b : Byte) : State := s.store [(a, b)]

/-- The platform's reset (70_reset_and_hazards.md R260, R261): every register 0, no command in flight, every byte of pixel memory
unspecified. The capacity, the rest of the host's script, the schedule and the answers already given are not the hardware's to
reset; the unwritten bytes are drawn anew (log 8). -/
def State.platformReset (s : State) : State :=
  { State.resetWith s.pixcap with
    script := s.script, turns := s.turns, answers := s.answers, draws := s.draws + 1 }

/-- An access that is undefined inside the busy window (70_reset_and_hazards.md R266, 93_implementation_defined.md U1). A command
in flight is always inside the window; the test names both, so that no state lets the host write while the engine is busy (log
5). -/
def guarded (s : State) (r : Host.Outcome State Fault Refusal) : Host.Outcome State Fault Refusal :=
  if s.windowOpen || s.inFlight.isSome then .fault .busyWindow else r

/-- A register access: outside the address space it is refused (20_memory.md R65, 93_implementation_defined.md U5). -/
def atRegister (off : Nat) (r : Host.Outcome State Fault Refusal) : Host.Outcome State Fault Refusal :=
  if registerOffset off then r else .refused (.noSuchRegister off)

/-- A pixel access: outside the address space it is refused (20_memory.md R64, 93_implementation_defined.md U5). -/
def atPixel (s : State) (a : Nat) (r : Host.Outcome State Fault Refusal) : Host.Outcome State Fault Refusal :=
  if a < s.pixcap then r else .refused (.noSuchPixel a)

/-- One access of the host, in a state whose script no longer lists it. `WAIT` is one poll of `STATUS` and stays in the script
while it reads `BUSY = 1` (30_encoding.md R100, log 14). -/
def hostAccess (op : HostOp) (s : State) : Host.Outcome State Fault Refusal :=
  match op with
  | .regRead off =>
    atRegister off (if off = 0x004 then .next (s.readReg off) else guarded s (.next (s.readReg off)))
  | .regWrite off v =>
    atRegister off (guarded s (if off = 0x000 then issue v s else .next (s.writeReg off v)))
  | .pixRead a => atPixel s a (guarded s (.next (s.readPix a)))
  | .pixWrite a b => atPixel s a (guarded s (.next (s.writePix a b)))
  | .wait =>
    .next (if s.status.busy then { s.readReg 0x004 with script := .wait :: s.script } else s.readReg 0x004)
  | .reset => .next s.platformReset

/-- The host's step: the next access of its script (00_scope.md R14). -/
def hostStep (s : State) : Host.Outcome State Fault Refusal :=
  match s.script with
  | [] => .next s
  | op :: rest => hostAccess op { s with script := rest }

/-- The engine's step: the completion of the command in flight (10_state.md R31); it has none otherwise (00_scope.md R14). -/
def engineStep (s : State) : Host.Outcome State Fault Refusal :=
  match s.inFlight with
  | some i => exec i s
  | none => .next s

/-- Who moves next. With no command in flight only the host can move, and none moves once its script is empty (the run has
ended, 70_reset_and_hazards.md R270). With a command in flight the schedule decides; the engine moves when the schedule or the
script is empty, so that the command completes (R268; log 4). -/
def State.mover (s : State) : Option Agent :=
  match s.inFlight, s.script, s.turns with
  | none, [], _ => none
  | none, _ :: _, _ => some .host
  | some _, _ :: _, .host :: _ => some .host
  | some _, _, _ => some .engine

/-- The schedule after a move: an entry is used up by every move made while a command is in flight. -/
def State.useTurn (s : State) : State :=
  if s.inFlight.isSome then { s with turns := s.turns.tail } else s

/-- One step of the system of two agents (00_scope.md R14). -/
def systemStep (s : State) : Host.Outcome State Fault Refusal :=
  match s.mover with
  | none => .next s
  | some .host => hostStep s.useTurn
  | some .engine => engineStep s.useTurn

/-- The state in which the host's very next access writes the command word `w` to `CMD` and may do so: no command in flight, the
busy window closed (log 13). -/
def State.withCommandWord (s : State) (w : Word) : State :=
  { s with
    script := .regWrite 0x000 w :: s.script
    inFlight := none
    windowOpen := false
    status := { s.status with busy := false } }

end Sys2Proof.Machine
end

