-- ==== Sys2Proof/Machine/Step.lean ====
section
/-! DEFINITION. The step of the machine, and the placing of a command word where the next step takes it. -/

namespace Sys2Proof.Machine

/-- One step of PIE: of the host or of the engine (00_scope.md R14). -/
def step (s : State) : Host.Outcome State Fault Refusal := systemStep s

/-- The state whose next step issues the command word made of the low `nbits` bits of `w` (log 13). -/
def State.withFetchWord (s : State) (nbits w : Nat) : State := s.withCommandWord (tableWord nbits w)

end Sys2Proof.Machine
end

