-- ==== Sys2Proof/Machine/Script.lean ====
section
/-! DEFINITION. The host-script notation of 30_encoding.md R99 and R100: each line of a script as the host accesses it stands
for. `rd NAME` is `HostOp.regRead`, `pw a, b` is `HostOp.pixWrite`, `pr a` is `HostOp.pixRead`, `WAIT` is `HostOp.wait`. -/

namespace Sys2Proof.Machine

/-- The registers that the notation names (10_state.md R22). -/
inductive RegName
  | cmd
  | status
  | width
  | height
  | fmt
  | kside
  | kdiv
  | kcoef (i : Fin 25)
  | hist (i : Fin 256)
  | cdf (i : Fin 256)
  | lut (i : Fin 256)
  deriving DecidableEq, Repr

/-- The offset of a register (10_state.md R22). -/
def RegName.offset : RegName → Nat
  | .cmd => 0x000
  | .status => 0x004
  | .width => 0x008
  | .height => 0x00C
  | .fmt => 0x010
  | .kside => 0x014
  | .kdiv => 0x018
  | .kcoef i => 0x040 + 4 * i.val
  | .hist i => 0x400 + 4 * i.val
  | .cdf i => 0x800 + 4 * i.val
  | .lut i => 0xC00 + 4 * i.val

/-- `rd NAME` (30_encoding.md R99). -/
def rd (n : RegName) : HostOp := .regRead n.offset

/-- `wr NAME, v` (30_encoding.md R99). -/
def wr (n : RegName) (v : Word) : HostOp := .regWrite n.offset v

/-- A command mnemonic on a line of its own (30_encoding.md R99). -/
def issueOp (i : Instr) : HostOp := .regWrite 0x000 (encode i)

/-- `.word v` (30_encoding.md R99). -/
def wordOp (v : Word) : HostOp := .regWrite 0x000 v

/-- `X!`: the command followed by `WAIT` (30_encoding.md R100). -/
def issueWait (i : Instr) : List HostOp := [issueOp i, .wait]

/-- `SETIMG w, h, f` (30_encoding.md R100). -/
def setImg (w h f : Nat) : List HostOp :=
  [wr .width (BitVec.ofNat 32 w), wr .height (BitVec.ofNat 32 h), wr .fmt (BitVec.ofNat 32 f)]

/-- `FILL a, n, b` (30_encoding.md R100). -/
def fill (a n : Nat) (b : Byte) : List HostOp := (List.range n).map fun i => .pixWrite (a + i) b

/-- `LOADPIX a, b0 b1 ... bk` (30_encoding.md R100). -/
def loadPix (a : Nat) (bs : List Byte) : List HostOp := bs.mapIdx fun i b => .pixWrite (a + i) b

/-- `KERNEL s, d, c0 c1 ... cm` (30_encoding.md R100): `ci mod 65536` is written to `KCOEF[i]`. -/
def loadKernel (side d : Nat) (cs : List Int) : List HostOp :=
  [wr .kside (BitVec.ofNat 32 side), wr .kdiv (BitVec.ofNat 32 d)]
    ++ cs.mapIdx fun i c => .regWrite (0x040 + 4 * i) ((BitVec.ofInt 16 c).setWidth 32)

end Sys2Proof.Machine
end

