-- ==== Sys2Proof/Machine/Codec.lean ====
section
/-! DEFINITION. The host software around the engine (45_host_bmp_codec.md): the BMP codec as functions from file bytes to an
image with its metadata and back, the host accesses a load and a save are made of, and what `applyFilter` and `describe` send. No command
of the engine reads or writes a file (log 16). -/

namespace Sys2Proof.Machine

/-- The error kinds of the codec (45_host_bmp_codec.md R213), and the host's refusal of an image that the registers or the pixel
memory cannot hold (R216). -/
inductive CodecError
  | ioError
  | formatError
  | hostLimit
  deriving DecidableEq, Repr

/-- The metadata preserved byte for byte across load and save (45_host_bmp_codec.md R200, R201). -/
inductive Metadata
  /-- The 54-byte header and the 1024-byte palette. -/
  | gray (header palette : List Byte)
  /-- The 14-byte file header and the 40-byte info header. -/
  | color (fileHeader infoHeader : List Byte)
  deriving DecidableEq, Repr

/-- A loaded image: dimensions, format, the bytes of pixel memory from address 0, and the metadata (45_host_bmp_codec.md
R202). -/
structure Loaded where
  width : Nat
  height : Nat
  format : Format
  bytes : List Byte
  md : Metadata
  deriving DecidableEq, Repr

/-- The byte of a file at an offset; used at offsets inside the file only. -/
def fileByte (f : List Byte) (off : Nat) : Byte := f.getD off 0

/-- An unsigned little-endian field of `n` bytes (45_host_bmp_codec.md R203, R204). -/
def leField (f : List Byte) (off : Nat) : Nat → Nat
  | 0 => 0
  | n + 1 => leField f off n + (fileByte f (off + n)).toNat * 256 ^ n

/-- A signed 32-bit little-endian field (45_host_bmp_codec.md R204). -/
def leSigned32 (f : List Byte) (off : Nat) : Int :=
  let v := leField f off 4
  if v < 2 ^ 31 then v else (v : Int) - 2 ^ 32

/-- `0x4D42`, the type tag (45_host_bmp_codec.md R204). -/
def bmpTag : Nat := 0x4D42

/-- Width at offset 18 (45_host_bmp_codec.md R203, R204). -/
def fileWidth (f : List Byte) : Int := leSigned32 f 18

/-- Height at offset 22 (45_host_bmp_codec.md R203, R204). -/
def fileHeight (f : List Byte) : Int := leSigned32 f 22

/-- Bit depth at offset 28 (45_host_bmp_codec.md R203, R204). -/
def fileDepth (f : List Byte) : Nat := leField f 28 2

/-- `dataSize` at offset 34 (45_host_bmp_codec.md R203). -/
def fileDataSize (f : List Byte) : Nat := leField f 34 4

/-- `pixelDataBase` at offset 10 (45_host_bmp_codec.md R204). -/
def filePixelBase (f : List Byte) : Nat := leField f 10 4

/-- Where the pixel bytes of a grayscale file start: 54 + 1024 (45_host_bmp_codec.md R203). -/
def grayBase : Nat := 1078

/-- The length of the two headers of a colour file (45_host_bmp_codec.md R204). -/
def colorHeaders : Nat := 54

/-- The limits the host applies to the dimensions and the size (45_host_bmp_codec.md R216). -/
def withinLimits (cap : Nat) (w h : Int) (bytes : Nat) : Bool :=
  decide (0 ≤ w) && decide (w ≤ 65535) && decide (0 ≤ h) && decide (h ≤ 65535) && decide (bytes ≤ cap)

/-- `pixelDataBase + (height-1-y)*width*3 + x*3` (45_host_bmp_codec.md R207): the flip and the stride without padding
(R205). -/
def colorOffset (base w h x y : Nat) : Nat := base + (h - 1 - y) * w * 3 + x * 3

/-- The pixel bytes of a colour file in memory order: rows top to bottom, red, green, blue (45_host_bmp_codec.md R207). -/
def colorBytes (f : List Byte) (base w h : Nat) : List Byte :=
  (coords w h).flatMap fun p =>
    [ fileByte f (colorOffset base w h p.1 p.2 + 2),
      fileByte f (colorOffset base w h p.1 p.2 + 1),
      fileByte f (colorOffset base w h p.1 p.2) ]

/-- The grayscale path of a load (45_host_bmp_codec.md R208): no tag check, no flip, exactly `dataSize` bytes.
OPEN QUESTION of the source (R209, 93_implementation_defined.md U10): whether row 0 of an 8-bit file, and so row 0 of pixel memory
after this load, is the top or the bottom of the picture. The spec fixes "no flip" and leaves the question open; so does the model,
which gives no row of a grayscale image either meaning (log 18; UNVERIFIED). -/
def loadGray (cap : Nat) (f : List Byte) : Except CodecError Loaded :=
  if f.length < grayBase then .error .formatError
  else if fileDepth f ≠ 8 then .error .formatError
  else if f.length < grayBase + fileDataSize f then .error .formatError
  else if withinLimits cap (fileWidth f) (fileHeight f)
      (max ((fileWidth f).toNat * (fileHeight f).toNat) (fileDataSize f)) then
    .ok
      { width := (fileWidth f).toNat
        height := (fileHeight f).toNat
        format := .gray8
        bytes := (f.drop grayBase).take (fileDataSize f)
        md := .gray (f.take 54) ((f.drop 54).take 1024) }
  else .error .hostLimit

/-- The colour path of a load (45_host_bmp_codec.md R207): the tag, the depth, the limits, then every pixel must lie in the
file. -/
def loadColor (cap : Nat) (f : List Byte) : Except CodecError Loaded :=
  if f.length < colorHeaders then .error .formatError
  else if leField f 0 2 ≠ bmpTag then .error .formatError
  else if fileDepth f ≠ 24 then .error .formatError
  else if withinLimits cap (fileWidth f) (fileHeight f)
      ((fileWidth f).toNat * (fileHeight f).toNat * 3) then
    if (fileWidth f).toNat * (fileHeight f).toNat * 3 = 0 ∨
        filePixelBase f + (fileWidth f).toNat * (fileHeight f).toNat * 3 ≤ f.length then
      .ok
        { width := (fileWidth f).toNat
          height := (fileHeight f).toNat
          format := .rgb24
          bytes := colorBytes f (filePixelBase f) (fileWidth f).toNat (fileHeight f).toNat
          md := .color (f.take 14) ((f.drop 14).take 40) }
    else .error .formatError
  else .error .hostLimit

/-- `load(path)` (45_host_bmp_codec.md R206): `none` is a file that cannot be opened. The 8-bit interpretation is tried first;
if it rejects the file's format, the 24-bit interpretation decides. This is the outcome only: what a failed load has written to pixel
memory before it failed is open (R213) and stands in `Session.load` (log 19; DESIGN CHOICE). -/
def loadFile (cap : Nat) (file : Option (List Byte)) : Except CodecError Loaded :=
  match file with
  | none => .error .ioError
  | some f =>
    match loadGray cap f with
    | .error .formatError => loadColor cap f
    | r => r

/-- `FMT` of a format (10_state.md R27). -/
def Format.code : Format → Nat
  | .gray8 => 0
  | .rgb24 => 1

/-- The host accesses of a load (45_host_bmp_codec.md R207, R208). -/
def Loaded.script (img : Loaded) : List HostOp :=
  setImg img.width img.height img.format.code ++ loadPix 0 img.bytes

/-- The address order in which a save reads pixel memory (45_host_bmp_codec.md R210, R211). -/
def saveReads (md : Metadata) (w h : Nat) : List Nat :=
  match md with
  | .gray header _ => List.range (fileDataSize header)
  | .color _ _ => (coords w h).flatMap fun p => [(p.2 * w + p.1) * 3 + 2, (p.2 * w + p.1) * 3 + 1, (p.2 * w + p.1) * 3]

/-- The host accesses of a save (45_host_bmp_codec.md R210, R211). -/
def saveScript (md : Metadata) (w h : Nat) : List HostOp := (saveReads md w h).map HostOp.pixRead

/-- Bytes written to consecutive file offsets. -/
def cellsFrom (off : Nat) (bs : List Byte) : List Host.Cell := bs.mapIdx fun i b => (off + i, b)

/-- What a save writes: (file offset, byte) pairs. Grayscale: header, palette and buffer unchanged (45_host_bmp_codec.md R210).
Colour: both headers unchanged, then every pixel at the offset of R207 in blue, green, red order (R211). `pix` is what
`PixRead` answers. -/
def saveCells (md : Metadata) (w h : Nat) (pix : Nat → Byte) : List Host.Cell :=
  match md with
  | .gray header palette =>
    cellsFrom 0 header ++ cellsFrom 54 palette
      ++ cellsFrom grayBase ((List.range (fileDataSize header)).map pix)
  | .color fileHeader infoHeader =>
    cellsFrom 0 fileHeader ++ cellsFrom 14 infoHeader
      ++ (coords w h).flatMap fun p =>
        cellsFrom (colorOffset (filePixelBase fileHeader) w h p.1 p.2)
          [pix ((p.2 * w + p.1) * 3 + 2), pix ((p.2 * w + p.1) * 3 + 1), pix ((p.2 * w + p.1) * 3)]

/-- `save` (45_host_bmp_codec.md R212): `none` is a destination that cannot be created, `some n` one that takes at most `n`
written bytes. -/
def saveFile (dest : Option Nat) (md : Metadata) (w h : Nat) (pix : Nat → Byte) :
    Except CodecError (List Host.Cell) :=
  match dest with
  | none => .error .ioError
  | some n => if (saveCells md w h pix).length ≤ n then .ok (saveCells md w h pix) else .error .ioError

/-- A parameter outside the immediate's range is replaced by the nearer bound (30_encoding.md R93, 45_host_bmp_codec.md R215). -/
def clampImm (imm : Int) : Int := max (-32768) (min 32767 imm)

/-- The command that `applyFilter` issues for a filter with an unbounded parameter (45_host_bmp_codec.md R215). -/
def filterCommand : Instr → Instr
  | .bright d => .bright (clampImm d)
  | .thresh t => .thresh (clampImm t)
  | i => i

/-- The first accesses of `applyFilter`: write the command word, read `STATUS` (45_host_bmp_codec.md R215). -/
def applyFilterStart (i : Instr) : List HostOp := [issueOp (filterCommand i), rd .status]

/-- What `applyFilter` does with the word read: an error with its `ERRCODE`, or `WAIT` and then ok (45_host_bmp_codec.md R215). -/
def applyFilterNext (status : Word) : Except (BitVec 4) (List HostOp) :=
  if status.getLsbD 2 then .error (status.extractLsb' 4 4) else .ok [.wait]

/-- The accesses of `describe` (45_host_bmp_codec.md R215). -/
def describeScript : List HostOp := [rd .width, rd .height, rd .fmt]

/-- `bitDepth` of `describe` from the value of `FMT` (45_host_bmp_codec.md R215, 10_state.md R27). -/
def bitDepth (fmt : Word) : Nat := if fmt = 0 then 8 else 24

end Sys2Proof.Machine
end

