-- ==== Sys2Proof/Machine/Session.lean ====
section
/-! DEFINITION. The host's session object around the engine (45_host_bmp_codec.md R202, R213, R217): which image is loaded, and what
load, save, discard, `applyFilter` and `describe` do to it and to the ports. The engine cannot tell whether there is an image. -/

namespace Sys2Proof.Machine

/-- What the host keeps of a loaded image beside the bytes in pixel memory: its dimensions, and the metadata whose constructor says
which of the two variants it is (45_host_bmp_codec.md R200 to R202). -/
structure SessionImage where
  width : Nat
  height : Nat
  md : Metadata
  deriving DecidableEq, Repr

/-- The host's session object: at most one loaded image variant, "grayscale | color | none" (45_host_bmp_codec.md R202). -/
structure Session where
  image : Option SessionImage
  deriving DecidableEq, Repr

/-- The errors of the host's operations: no image loaded (45_host_bmp_codec.md R217), an error of the codec (R213), a command the engine
rejected, with its `ERRCODE` (R215). -/
inductive SessionError
  | noImage
  | codec (e : CodecError)
  | rejected (code : BitVec 4)
  deriving DecidableEq, Repr

/-- What a load or a discard leaves: the session, the host accesses made, and the error reported, if any. -/
structure SessionStep where
  session : Session
  accesses : List HostOp
  error : Option SessionError
  deriving DecidableEq, Repr

/-- The session of a host that has loaded nothing (45_host_bmp_codec.md R202). -/
def Session.empty : Session := ⟨none⟩

/-- An access that a load may make: a write of `WIDTH`, `HEIGHT` or `FMT`, or of a byte below `PIXCAP` (45_host_bmp_codec.md R207,
R208). -/
def loadAccess (cap : Nat) : HostOp → Bool
  | .regWrite off _ => off == 0x008 || off == 0x00C || off == 0x010
  | .pixWrite a _ => decide (a < cap)
  | .regRead _ => false
  | .pixRead _ => false
  | .wait => false
  | .reset => false

/-- A load (45_host_bmp_codec.md R206). One that succeeds writes dimensions, format and bytes and replaces the image of the session
together with its metadata (R202). One that fails leaves the session without an image, a former one included: "the host then treats
the engine as holding no image" (R213). What it has written before it failed is open ("may already have written part of pixel
memory"): `part` is free, cut down to accesses that a load may make (log 19; DESIGN CHOICE, safe). -/
def Session.load (_ : Session) (cap : Nat) (file : Option (List Byte)) (part : List HostOp) : SessionStep :=
  match loadFile cap file with
  | .ok img => ⟨⟨some ⟨img.width, img.height, img.md⟩⟩, img.script, none⟩
  | .error e => ⟨Session.empty, part.filter (loadAccess cap), some (.codec e)⟩

/-- The caller discards the image: buffer and metadata go together, with no hardware action (45_host_bmp_codec.md R202). -/
def Session.discard (_ : Session) : SessionStep := ⟨Session.empty, [], none⟩

/-- An operation on the loaded image; without one it is the host's error, not the engine's (45_host_bmp_codec.md R217). -/
def Session.onImage {α : Type} (ss : Session) (f : SessionImage → Except SessionError α) : Except SessionError α :=
  match ss.image with
  | none => .error .noImage
  | some img => f img

/-- The host accesses of a save (45_host_bmp_codec.md R210, R211). The session is not changed. -/
def Session.saveScript (ss : Session) : Except SessionError (List HostOp) :=
  ss.onImage fun img => .ok (Sys2Proof.Machine.saveScript img.md img.width img.height)

/-- What a save writes when its reads answered `pix`, or its error (45_host_bmp_codec.md R210 to R213). -/
def Session.save (ss : Session) (dest : Option Nat) (pix : Nat → Byte) : Except SessionError (List Host.Cell) :=
  ss.onImage fun img =>
    match saveFile dest img.md img.width img.height pix with
    | .ok cells => .ok cells
    | .error e => .error (.codec e)

/-- The first accesses of `applyFilter` (45_host_bmp_codec.md R215, R217). The session is not changed. -/
def Session.applyFilter (ss : Session) (i : Instr) : Except SessionError (List HostOp) :=
  ss.onImage fun _ => .ok (applyFilterStart i)

/-- What `applyFilter` does with the value of `STATUS` it has read (45_host_bmp_codec.md R215). -/
def Session.applyFilterNext (ss : Session) (status : Word) : Except SessionError (List HostOp) :=
  ss.onImage fun _ =>
    match Sys2Proof.Machine.applyFilterNext status with
    | .ok ops => .ok ops
    | .error code => .error (.rejected code)

/-- What `describe` answers (45_host_bmp_codec.md R215). -/
structure Description where
  width : Nat
  height : Nat
  bitDepth : Nat
  deriving DecidableEq, Repr

/-- The accesses of `describe` (45_host_bmp_codec.md R215, R217). The session is not changed. -/
def Session.describe (ss : Session) : Except SessionError (List HostOp) := ss.onImage fun _ => .ok describeScript

/-- The answer of `describe` from the values its three reads returned (45_host_bmp_codec.md R215). -/
def describeAnswer (width height fmt : Word) : Description := ⟨width.toNat, height.toNat, Sys2Proof.Machine.bitDepth fmt⟩

end Sys2Proof.Machine
end

