-- ==== Sys2Proof/Safety.lean ====
section
/-! DEFINITION. What a safe state and a safe run are, and the terms the claims are stated in: the invariant of reachable states,
the host contract of 70_reset_and_hazards.md R269, and what a completed command leaves as it was (10_state.md R42). -/

namespace Sys2Proof.Machine

/-- The eight values of `STATUS` that 10_state.md R24 calls reachable. -/
def legalStatusWords : List Word :=
  [0x00000000, 0x00000001, 0x00000002, 0x00000014, 0x00000024, 0x00000034, 0x00000044, 0x00000054]

/-- The invariant of the machine. -/
structure State.Inv (s : State) : Prop where
  /-- `STATUS` holds one of the values of 10_state.md R24. -/
  statusLegal : s.status.word ∈ legalStatusWords
  /-- `BUSY` is 1 exactly while a command is in flight (10_state.md R24). -/
  busyInFlight : s.status.busy = s.inFlight.isSome
  /-- A command in flight means that the busy window is open (70_reset_and_hazards.md R266). -/
  windowInFlight : s.inFlight.isSome = true → s.windowOpen = true
  /-- The command in flight is the one in `CMD`, and it passed every check (10_state.md R30). -/
  accepted : ∀ i, s.inFlight = some i → decode s.cmd = .instr i ∧ s.check i = none
  /-- Pixel memory keeps its canonical form. -/
  memWf : s.mem.wf = true
  /-- No byte at or above `PIXCAP` is ever written (20_memory.md R61, R75). -/
  memBelow : Memory.below s.pixcap s.mem = true

/-- `CDF` is the running sum of `HIST` (10_state.md R35). -/
def State.cdfSumsHist (s : State) : Prop :=
  s.cdf[0] = s.hist[0] ∧ ∀ (i : Nat) (h : i + 1 < 256), s.cdf[i + 1] = s.cdf[i] + s.hist[i + 1]

/-- A script that keeps the host contract (70_reset_and_hazards.md R266, R269) when it starts with the busy window open
(`true`) or closed (`false`): inside the window only reads of `STATUS`, `WAIT` and reset; every offset and address inside its
address space. -/
def contractKept (cap : Nat) : Bool → List HostOp → Bool
  | _, [] => true
  | w, .regRead off :: rest => registerOffset off && (off == 0x004 || !w) && contractKept cap w rest
  | w, .regWrite off _ :: rest => registerOffset off && !w && contractKept cap (off == 0x000) rest
  | w, .pixRead a :: rest => decide (a < cap) && !w && contractKept cap false rest
  | w, .pixWrite a _ :: rest => decide (a < cap) && !w && contractKept cap false rest
  | _, .wait :: rest => contractKept cap false rest
  | _, .reset :: rest => contractKept cap false rest

/-- The rest of the host's script keeps the host contract. -/
def State.contract (s : State) : Bool := contractKept s.pixcap s.windowOpen s.script

/-- The run has ended (70_reset_and_hazards.md R270). -/
def State.ended (s : State) : Bool := s.script.isEmpty && s.inFlight.isNone

/-- A safe state: the next step is neither a fault nor a refusal. -/
def State.safe (s : State) : Prop := ∃ t, step s = .next t

/-- The host may make any access: nothing is in flight, and the busy window is closed. -/
def State.ready (s : State) : Prop := s.inFlight = none ∧ s.windowOpen = false

/-- The configuration a command reads is as before, and so is `CMD` (10_state.md R41). -/
def sameConfig (s t : State) : Prop :=
  t.pixcap = s.pixcap ∧ t.cmd = s.cmd ∧ t.width = s.width ∧ t.height = s.height ∧ t.fmt = s.fmt ∧
  t.kside = s.kside ∧ t.kdiv = s.kdiv ∧ t.kcoef = s.kcoef

/-- The tables of the equalizer are as before (10_state.md R34 to R36). -/
def sameTables (s t : State) : Prop := t.hist = s.hist ∧ t.cdf = s.cdf ∧ t.lut = s.lut

/-- The host's side is as before: its script, the schedule, its answers, and the busy window, which only the host's own read of
`STATUS` closes (70_reset_and_hazards.md R266). -/
def sameHost (s t : State) : Prop :=
  t.script = s.script ∧ t.turns = s.turns ∧ t.answers = s.answers ∧ t.windowOpen = s.windowOpen

/-- `t` is `s` after the completion of its command, pixel memory and tables apart: `STATUS` is `DONE`, nothing is in flight,
configuration and host side are as before (10_state.md R31, R42). -/
def completedFrom (s t : State) : Prop :=
  t.status.word = 0x00000002 ∧ t.inFlight = none ∧ sameConfig s t ∧ sameHost s t

/-- No byte of pixel memory has changed. -/
def sameMemory (s t : State) : Prop := ∀ a, t.mem.read a = s.mem.read a

/-- Pixel memory outside the active region is as before (10_state.md R37). -/
def sameOutside (s t : State) : Prop := ∀ a, s.nBytes ≤ a → t.mem.read a = s.mem.read a

/-- The completion of command `i` on the image of `s`, whatever else `s` has in flight: used to chain commands in the laws of
40_point_ops.md R127 and 41_convolution.md R154. -/
def completes (i : Instr) (s t : State) : Prop := exec i { s with inFlight := some i } = .next t

/-- The host moves next: nothing is in flight, or the schedule says so. -/
def State.hostTurn (s : State) : Prop := s.inFlight = none ∨ s.turns.head? = some .host

/-- The engine moves next: a command is in flight, and the script is empty or the schedule does not name the host. -/
def State.engineTurn (s : State) : Prop :=
  s.inFlight.isSome = true ∧ (s.script = [] ∨ s.turns.head? ≠ some .host)

/-- The byte of channel `c` at `(x + dx, y + dy)` as a number (41_convolution.md R143). -/
def State.near (s : State) (x y c : Nat) (dx dy : Int) : Int :=
  ((s.pix (s.addr ((x : Int) + dx).toNat ((y : Int) + dy).toNat c)).toNat : Int)

/-- `(x, y)` is a pixel of the image and `c` one of its channels (00_scope.md R12). -/
def State.inImage (s : State) (x y c : Nat) : Prop := x < s.imgW ∧ y < s.imgH ∧ c < s.bpp

/-- The pixel lies at least `b` pixels inside the image on every side (41_convolution.md R145). -/
def State.interior (s : State) (b x y : Nat) : Prop := b ≤ x ∧ x + b < s.imgW ∧ b ≤ y ∧ y + b < s.imgH

/-- The intensity of a pixel, written out from 42_equalize.md R170 and R173 on natural numbers: the byte of a `GRAY8` pixel, the
rounded luminance of an `RGB24` pixel. -/
def State.brightness (s : State) (x y : Nat) : Nat :=
  if s.fmt = 0 then (s.pix (s.addr x y 0)).toNat
  else
    (29900 * (s.pix (s.addr x y 0)).toNat + 58700 * (s.pix (s.addr x y 1)).toNat
      + 11400 * (s.pix (s.addr x y 2)).toNat + 50000) / 100000

/-- The pixels of the image as a finite set. -/
def State.pixelSet (s : State) : Finset (Nat × Nat) := Finset.range s.imgW ×ˢ Finset.range s.imgH

/-- How many pixels have intensity `i` (42_equalize.md R171). -/
def State.countAt (s : State) (i : Nat) : Nat := (s.pixelSet.filter fun p => s.brightness p.1 p.2 = i).card

/-- How many pixels have an intensity of at most `i`. -/
def State.countUpTo (s : State) (i : Nat) : Nat := (s.pixelSet.filter fun p => s.brightness p.1 p.2 ≤ i).card

/-- `d` is the darkest intensity present (42_equalize.md R171). -/
def State.darkest (s : State) (d : Nat) : Prop :=
  (∃ p ∈ s.pixelSet, s.brightness p.1 p.2 = d) ∧ ∀ p ∈ s.pixelSet, d ≤ s.brightness p.1 p.2

/-- `d` is the brightest intensity present (42_equalize.md R172). -/
def State.brightest (s : State) (d : Nat) : Prop :=
  (∃ p ∈ s.pixelSet, s.brightness p.1 p.2 = d) ∧ ∀ p ∈ s.pixelSet, s.brightness p.1 p.2 ≤ d

/-- Two pixels of the image differ in intensity: exactly the images on which `EQUALIZE` is not degenerate (42_equalize.md
R175). -/
def State.twoIntensities (s : State) : Prop :=
  ∃ p ∈ s.pixelSet, ∃ q ∈ s.pixelSet, s.brightness p.1 p.2 ≠ s.brightness q.1 q.2

/-- The five catalog commands (41_convolution.md R142). -/
def catalog : List Instr := [.convBox, .convGauss, .convSharpen, .convOutline, .convEmboss]

end Sys2Proof.Machine
end

