-- ==== Sys2Proof/Certificates/Slice0/Obligations.lean ====
section
/-! DEFINITION. The statements for the provers. Each docstring names the rules of spec/ it formalises. Unwritten bytes of pixel
memory are free values (log 2): no statement rests on their value. -/

open Sys2Proof Sys2Proof.Machine

/-! ## The command word -/

/-- Decode and encode agree (30_encoding.md R92, R96, R99): every command, the immediate at every value of its range. -/
def Obligations.DecodeEncodeReturnsTheCommand : Prop :=
  ∀ i : Instr, i.wellFormed = true → decode (encode i) = .instr i

/-- Every legal word is the encoding of the command it decodes to: no bit of it is dropped (30_encoding.md R92, R96). -/
def Obligations.EncodeDecodeReturnsTheWord : Prop :=
  ∀ (w : Word) (i : Instr), decode w = .instr i → i.wellFormed = true ∧ encode i = w

/-- The opcode table decides the command (30_encoding.md R96). -/
def Obligations.OpcodeTableDecidesTheCommand : Prop :=
  ∀ w : Word,
    (∀ r ∈ opcodeTable, (r.holds w = true ↔ ∃ i, decode w = .instr i ∧ i.mnemonic = r.mnemonic)) ∧
    (∀ r ∈ opcodeTable, ∀ q ∈ opcodeTable, r.holds w = true → q.holds w = true → r = q) ∧
    ((∀ r ∈ opcodeTable, r.holds w = false) → ∃ why, decode w = .illegal why) ∧
    (∀ imm : Int, decode w = .instr (.bright imm) ∨ decode w = .instr (.thresh imm) →
      BitVec.ofInt 16 imm = w.extractLsb' 16 16)

/-- The legal words, field by field, and how many there are (30_encoding.md R92). -/
def Obligations.LegalWordsByFieldAndCount : Prop :=
  (∀ w : Word,
    (∃ i, decode w = .instr i) ↔
      ((w.extractLsb' 0 4 = 1#4 ∨ w.extractLsb' 0 4 = 2#4 ∨ w.extractLsb' 0 4 = 6#4) ∧
        w.extractLsb' 4 4 = 0#4 ∧ w.extractLsb' 8 8 = 0#8 ∧ w.extractLsb' 16 16 = 0#16) ∨
      ((w.extractLsb' 0 4 = 3#4 ∨ w.extractLsb' 0 4 = 4#4) ∧
        w.extractLsb' 4 4 = 0#4 ∧ w.extractLsb' 8 8 = 0#8) ∨
      (w.extractLsb' 0 4 = 5#4 ∧ (w.extractLsb' 4 4).toNat ≤ 5 ∧
        w.extractLsb' 8 8 = 0#8 ∧ w.extractLsb' 16 16 = 0#16)) ∧
  (Finset.univ.filter fun n : Fin (2 ^ 32) => legal (BitVec.ofFin n) = true).card = 131081

/-- Every word that is not legal is illegal for one of the reasons listed, and writing it to `CMD` with nothing in flight rejects
it with code 1 and changes nothing but `CMD` and `STATUS` (30_encoding.md R97). -/
def Obligations.IllegalWordsAreRejectedWithCodeOne : Prop :=
  (∀ w : Word,
    legal w = false ↔
      (w.extractLsb' 0 4 = 0#4 ∨ 7 ≤ (w.extractLsb' 0 4).toNat) ∨
      (w.extractLsb' 0 4 = 5#4 ∧ 6 ≤ (w.extractLsb' 4 4).toNat) ∨
      (w.extractLsb' 4 4 ≠ 0#4 ∧ w.extractLsb' 0 4 ≠ 5#4) ∨
      w.extractLsb' 8 8 ≠ 0#8 ∨
      (w.extractLsb' 16 16 ≠ 0#16 ∧ w.extractLsb' 0 4 ≠ 3#4 ∧ w.extractLsb' 0 4 ≠ 4#4)) ∧
  legal 0x00000000 = false ∧ legal 0xFFFFFFFF = false ∧
  (∀ (s : State) (w : Word) (rest : List HostOp),
    s.ready → s.script = .regWrite 0x000 w :: rest → legal w = false →
      step s = .next { s with cmd := w, status := ⟨false, false, true, 1⟩, script := rest })

/-- Words written out from the spec's table decode to the commands they stand for (30_encoding.md R96,
95_test_vectors.md V-ENC-1 to V-ENC-17). -/
def Obligations.SpecWordsDecodeAsListed : Prop :=
  decode 0b00000000000000000000000000000001#32 = .instr .neg ∧
  decode 0b00000000000000000000000000000010#32 = .instr .gray ∧
  decode 0x012C0003#32 = .instr (.bright 300) ∧
  decode 0xFED40003#32 = .instr (.bright (-300)) ∧
  decode 0x00000003#32 = .instr (.bright 0) ∧
  decode 0x80000003#32 = .instr (.bright (-32768)) ∧
  decode 0x7FFF0003#32 = .instr (.bright 32767) ∧
  decode 0x00800004#32 = .instr (.thresh 128) ∧
  decode 0xFFFF0004#32 = .instr (.thresh (-1)) ∧
  decode 0x01000004#32 = .instr (.thresh 256) ∧
  decode 0b00000000000000000000000000000101#32 = .instr .convBox ∧
  decode 0b00000000000000000000000000010101#32 = .instr .convGauss ∧
  decode 0b00000000000000000000000000100101#32 = .instr .convSharpen ∧
  decode 0b00000000000000000000000000110101#32 = .instr .convOutline ∧
  decode 0b00000000000000000000000001000101#32 = .instr .convEmboss ∧
  decode 0b00000000000000000000000001010101#32 = .instr .convCustom ∧
  decode 0b00000000000000000000000000000110#32 = .instr .equalize

/-- The immediate is the signed value of `w[31:16]`; a host may replace a parameter outside its range by the nearer bound, which
changes no result (30_encoding.md R93). -/
def Obligations.ImmediateIsSignedAndSaturates : Prop :=
  (∀ (w : Word) (imm : Int), decode w = .instr (.bright imm) ∨ decode w = .instr (.thresh imm) →
    imm = (if (w.extractLsb' 16 16).toNat < 32768 then ((w.extractLsb' 16 16).toNat : Int)
      else ((w.extractLsb' 16 16).toNat : Int) - 65536) ∧ -32768 ≤ imm ∧ imm ≤ 32767) ∧
  (∀ (p : Int) (v : Byte),
    -32768 ≤ clampImm p ∧ clampImm p ≤ 32767 ∧
    (-32768 ≤ p → p ≤ 32767 → clampImm p = p) ∧ (p < -32768 → clampImm p = -32768) ∧ (32767 < p → clampImm p = 32767) ∧
    brightByte (clampImm p) v = brightByte p v ∧ threshByte (clampImm p) v = threshByte p v ∧
    (255 ≤ p → brightByte p v = 255) ∧ (p ≤ -255 → brightByte p v = 0) ∧
    (p ≤ 0 → threshByte p v = 255) ∧ (256 ≤ p → threshByte p v = 0))

/-- The arithmetic primitives: floor division, clamp, rounding to nearest with ties upward, and that after the clamp ties away
from zero would give the same (00_scope.md R11). -/
def Obligations.RoundingIsNearestWithTiesUpward : Prop :=
  (∀ a b q : Int, 0 < b → (a / b = q ↔ q * b ≤ a ∧ a < (q + 1) * b)) ∧
  (∀ v : Int, (v < 0 → clamp v = 0) ∧ (255 < v → clamp v = 255) ∧ (0 ≤ v → v ≤ 255 → clamp v = v)) ∧
  (∀ n d q : Int, 0 < d → (rhu n d = q ↔ (2 * q - 1) * d ≤ 2 * n ∧ 2 * n < (2 * q + 1) * d)) ∧
  (∀ n d : Int, 0 < d → rhu n d = (2 * n + d) / (2 * d)) ∧
  (∀ n d : Int, 0 < d → clamp (rhu n d) = clamp (if 0 ≤ n then rhu n d else -(rhu (-n) d)))

/-! ## Issue -/

/-- The checks at issue, in the order of their codes, and the code each leaves in `STATUS`: ILLEGAL 1, MODE 2, SIZE 3, KSIDE 4, KDIV 5;
the first that fails decides, and a command that passes all is accepted (60_exceptions.md R232, R230). -/
def Obligations.IssueChecksInCodeOrder : Prop :=
  ∀ (s : State) (w : Word), s.inFlight = none →
    (legal w = false → issue w s = .next { s with cmd := w, status := ⟨false, false, true, 1⟩ }) ∧
    (∀ i, decode w = .instr i →
      (i = .gray ∧ s.fmt = 0 → issue w s = .next { s with cmd := w, status := ⟨false, false, true, 2⟩ }) ∧
      (∀ imm, i = .thresh imm ∧ s.fmt = 1 → issue w s = .next { s with cmd := w, status := ⟨false, false, true, 2⟩ }) ∧
      (¬(i = .gray ∧ s.fmt = 0) → ¬(∃ imm, i = .thresh imm ∧ s.fmt = 1) →
        (s.imgW * s.imgH * s.bpp > s.pixcap → issue w s = .next { s with cmd := w, status := ⟨false, false, true, 3⟩ }) ∧
        (s.imgW * s.imgH * s.bpp ≤ s.pixcap →
          (i = .convCustom ∧ s.kside = 7 → issue w s = .next { s with cmd := w, status := ⟨false, false, true, 4⟩ }) ∧
          (i = .convCustom ∧ (s.kside = 1 ∨ s.kside = 3 ∨ s.kside = 5) ∧ s.kdiv = 0 →
            issue w s = .next { s with cmd := w, status := ⟨false, false, true, 5⟩ }) ∧
          (¬(i = .convCustom ∧ (s.kside = 7 ∨ ((s.kside = 1 ∨ s.kside = 3 ∨ s.kside = 5) ∧ s.kdiv = 0))) →
            issue w s = .next
              { s with cmd := w, status := ⟨true, false, false, 0⟩, inFlight := some i, windowOpen := true }))))

/-- A rejected command leaves its code in `STATUS` and its word in `CMD`; nothing else changes, and it has no completion step
(60_exceptions.md R231). -/
def Obligations.RejectionChangesOnlyCmdAndStatus : Prop :=
  ∀ (s t : State) (w : Word) (rest : List HostOp),
    s.ready → s.script = .regWrite 0x000 w :: rest → step s = .next t → t.status.err = true →
      ∃ k ∈ ([1, 2, 3, 4, 5] : List (BitVec 4)),
        t = { s with cmd := w, status := ⟨false, false, true, k⟩, script := rest } ∧
        t.status.busy = false ∧ t.status.done = false ∧ t.inFlight = none ∧
        t.status.word ∈ ([0x00000014, 0x00000024, 0x00000034, 0x00000044, 0x00000054] : List Word)

/-- The issue of a command as one atomic step of the host (10_state.md R30). -/
def Obligations.IssueStoresDecodesChecksAndAnswers : Prop :=
  ∀ (s : State) (w : Word) (rest : List HostOp), s.ready → s.script = .regWrite 0x000 w :: rest →
    (∀ why, decode w = .illegal why →
      step s = .next { s with cmd := w, status := ⟨false, false, true, 1⟩, script := rest }) ∧
    (∀ i k, decode w = .instr i → s.check i = some k →
      ∃ n : BitVec 4, (k, n) ∈ [(ErrCode.mode, 2#4), (ErrCode.size, 3#4), (ErrCode.kside, 4#4), (ErrCode.kdiv, 5#4)] ∧
        step s = .next { s with cmd := w, status := ⟨false, false, true, n⟩, script := rest }) ∧
    (∀ i, decode w = .instr i → s.check i = none →
      step s = .next
        { s with
          cmd := w, status := ⟨true, false, false, 0⟩, inFlight := some i, windowOpen := true, script := rest })

/-! ## The step -/

/-- A step runs the decoded command: a word written to `CMD` is issued by `exec` of the command it decodes to, after `CMD` has
taken it; the command in flight is completed by `exec` of itself, after the schedule's entry is used up (10_state.md R30, R31; the
two phases of `exec` are log 7). -/
def Obligations.StepRunsTheDecodedCommand : Prop :=
  (∀ (s : State) (w : Word) (rest : List HostOp) (i : Instr),
    s.ready → s.script = .regWrite 0x000 w :: rest → decode w = .instr i →
      step s = exec i { s with script := rest, cmd := w }) ∧
  (∀ (s : State) (i : Instr), s.inFlight = some i → s.engineTurn →
    step s = exec i { s with turns := s.turns.tail })

/-- Completion: with a command in flight the engine's step ends in a next state with `STATUS` = `DONE` and nothing in flight,
whatever the command (10_state.md R31, 60_exceptions.md R233). -/
def Obligations.CompletionIsOneStepEndingDone : Prop :=
  ∀ (s : State) (i : Instr), s.inFlight = some i → s.engineTurn →
    ∃ t, step s = .next t ∧ t.status = ⟨false, true, false, 0⟩ ∧ t.status.word = 0x00000002 ∧ t.inFlight = none ∧
      sameConfig s t ∧ t.script = s.script ∧ t.answers = s.answers ∧ t.windowOpen = s.windowOpen

/-- What a completion leaves unchanged, for every command (10_state.md R42, R41, R37, 41_convolution.md R145): configuration, the
host's side, memory outside the active region, the tables unless the command is `EQUALIZE`; for the catalog kernels the border
too, and all of memory for `CONV.CUSTOM` with an even side. -/
def Obligations.CompletionFrame : Prop :=
  ∀ (s t : State) (i : Instr), s.inFlight = some i → s.check i = none → exec i s = .next t →
    completedFrom s t ∧ sameOutside s t ∧
    (i ≠ .equalize → sameTables s t) ∧
    (i ∈ catalog → ∀ x y c, s.inImage x y c → ¬ s.interior 1 x y →
      t.mem.read (s.addr x y c) = s.mem.read (s.addr x y c)) ∧
    (i = .convCustom → s.kside.toNat % 2 = 0 → sameMemory s t)

/-- What a completion reads: two states that agree on the size, the format and the written bytes of the active region (and on the
kernel registers, for `CONV.CUSTOM`) end with the same active region and, for `EQUALIZE`, the same tables, the LUT unless it is
left as it was (10_state.md R42, R41). -/
def Obligations.CompletionDependsOnlyOnItsReads : Prop :=
  ∀ (s s' t t' : State) (i : Instr),
    s.inFlight = some i → s'.inFlight = some i → s.check i = none → s'.check i = none →
    s.width = s'.width → s.height = s'.height → s.fmt = s'.fmt →
    (∀ a, a < s.nBytes → ∃ b, s.mem.read a = some b ∧ s'.mem.read a = some b) →
    (i = .convCustom → s.kside = s'.kside ∧ s.kdiv = s'.kdiv ∧ s.kcoef = s'.kcoef) →
    exec i s = .next t → exec i s' = .next t' →
      (∀ a, a < s.nBytes → t.mem.read a = t'.mem.read a) ∧
      (i = .equalize →
        t.hist = t'.hist ∧ t.cdf = t'.cdf ∧ (t.lut = t'.lut ∨ (t.lut = s.lut ∧ t'.lut = s'.lut)))

/-! ## Point operations -/

/-- `NEG` in flight completes: every byte of the active region becomes `255 - v`, in both formats (40_point_ops.md R121, R126). -/
def Obligations.NegReplacesEveryByte : Prop :=
  ∀ s : State, s.inFlight = some .neg →
    ∃ t, exec .neg s = .next t ∧ completedFrom s t ∧ sameTables s t ∧ sameOutside s t ∧
      ∀ a, a < s.nBytes → t.mem.read a = some (BitVec.ofNat 8 (255 - (s.pix a).toNat))

/-- `GRAY` in flight on a colour image completes: the three channels of every pixel become the floor of their mean
(40_point_ops.md R122). -/
def Obligations.GraySetsThreeChannelsToTheMean : Prop :=
  ∀ s : State, s.inFlight = some .gray → s.fmt = 1 →
    ∃ t, exec .gray s = .next t ∧ completedFrom s t ∧ sameTables s t ∧ sameOutside s t ∧
      ∀ x y c, x < s.imgW → y < s.imgH → c < 3 →
        t.mem.read (s.addr x y c) =
          some (BitVec.ofNat 8 (((s.pix (s.addr x y 0)).toNat + (s.pix (s.addr x y 1)).toNat
            + (s.pix (s.addr x y 2)).toNat) / 3))

/-- `BRIGHT imm` in flight completes: every byte becomes `clamp(v + imm)`, in both formats (40_point_ops.md R123, R125). -/
def Obligations.BrightAddsAndClamps : Prop :=
  ∀ (s : State) (imm : Int), s.inFlight = some (.bright imm) →
    ∃ t, exec (.bright imm) s = .next t ∧ completedFrom s t ∧ sameTables s t ∧ sameOutside s t ∧
      ∀ a, a < s.nBytes →
        t.mem.read a = some (BitVec.ofInt 8 (max 0 (min 255 (((s.pix a).toNat : Int) + imm))))

/-- `THRESH imm` in flight on a `GRAY8` image completes: every byte becomes 255 if `v ≥ imm` (signed, inclusive) and 0 otherwise
(40_point_ops.md R124, R125). -/
def Obligations.ThreshComparesInclusively : Prop :=
  ∀ (s : State) (imm : Int), s.inFlight = some (.thresh imm) → s.fmt = 0 →
    ∃ t, exec (.thresh imm) s = .next t ∧ completedFrom s t ∧ sameTables s t ∧ sameOutside s t ∧
      ∀ a, a < s.nBytes → t.mem.read a = some (if imm ≤ ((s.pix a).toNat : Int) then 255 else 0)

/-- Laws of the point operations (40_point_ops.md R127): `NEG` after `NEG`; `GRAY` then `NEG` on a uniform colour image; `BRIGHT`
after `BRIGHT` of the same sign; `THRESH` then `NEG`. -/
def Obligations.PointOperationLaws : Prop :=
  (∀ s t u : State, completes .neg s t → completes .neg t u →
    ∀ a, a < s.nBytes → u.mem.read a = some (s.pix a)) ∧
  (∀ (s t u : State) (v : Byte), s.fmt = 1 → (∀ a, a < s.nBytes → s.mem.read a = some v) →
    completes .gray s t → completes .neg t u →
    ∀ a, a < s.nBytes → u.mem.read a = some (BitVec.ofNat 8 (255 - v.toNat))) ∧
  (∀ (s t u r : State) (p q : Int), (0 ≤ p ∧ 0 ≤ q) ∨ (p ≤ 0 ∧ q ≤ 0) →
    completes (.bright p) s t → completes (.bright q) t u → completes (.bright (clampImm (p + q))) s r →
    ∀ a, a < s.nBytes → u.mem.read a = r.mem.read a) ∧
  (∀ (s t u : State) (imm : Int), s.fmt = 0 → completes (.thresh imm) s t → completes .neg t u →
    ∀ a, a < s.nBytes → u.mem.read a = some (if imm ≤ ((s.pix a).toNat : Int) then 0 else 255))

/-! ## Convolution -/

/-- `CONV.BOX` in flight completes: inside the one-pixel border every channel becomes the rounded mean of its nine bytes, all other
bytes are as before (41_convolution.md R147, R145, R146, R153). -/
def Obligations.BoxAveragesNineBytes : Prop :=
  ∀ s : State, s.inFlight = some .convBox →
    ∃ t, exec .convBox s = .next t ∧ completedFrom s t ∧ sameTables s t ∧ sameOutside s t ∧
      ∀ x y c, s.inImage x y c →
        (s.interior 1 x y → t.mem.read (s.addr x y c) = some (BitVec.ofInt 8
          ((2 * (s.near x y c (-1) (-1) + s.near x y c 0 (-1) + s.near x y c 1 (-1)
            + s.near x y c (-1) 0 + s.near x y c 0 0 + s.near x y c 1 0
            + s.near x y c (-1) 1 + s.near x y c 0 1 + s.near x y c 1 1) + 9) / 18))) ∧
        (¬ s.interior 1 x y → t.mem.read (s.addr x y c) = s.mem.read (s.addr x y c))

/-- `CONV.GAUSS` in flight completes: weights 1 2 1, 2 4 2, 1 2 1 over 16, rounded (41_convolution.md R148, R145, R146, R153). -/
def Obligations.GaussWeighsNineBytes : Prop :=
  ∀ s : State, s.inFlight = some .convGauss →
    ∃ t, exec .convGauss s = .next t ∧ completedFrom s t ∧ sameTables s t ∧ sameOutside s t ∧
      ∀ x y c, s.inImage x y c →
        (s.interior 1 x y → t.mem.read (s.addr x y c) = some (BitVec.ofInt 8
          ((2 * (s.near x y c (-1) (-1) + 2 * s.near x y c 0 (-1) + s.near x y c 1 (-1)
            + 2 * s.near x y c (-1) 0 + 4 * s.near x y c 0 0 + 2 * s.near x y c 1 0
            + s.near x y c (-1) 1 + 2 * s.near x y c 0 1 + s.near x y c 1 1) + 16) / 32))) ∧
        (¬ s.interior 1 x y → t.mem.read (s.addr x y c) = s.mem.read (s.addr x y c))

/-- `CONV.SHARPEN` in flight completes: `clamp(5*centre - up - down - left - right)` (41_convolution.md R149, R145, R146,
R153). -/
def Obligations.SharpenSubtractsFourNeighbours : Prop :=
  ∀ s : State, s.inFlight = some .convSharpen →
    ∃ t, exec .convSharpen s = .next t ∧ completedFrom s t ∧ sameTables s t ∧ sameOutside s t ∧
      ∀ x y c, s.inImage x y c →
        (s.interior 1 x y → t.mem.read (s.addr x y c) = some (BitVec.ofInt 8 (max 0 (min 255
          (5 * s.near x y c 0 0 - s.near x y c 0 (-1) - s.near x y c 0 1
            - s.near x y c (-1) 0 - s.near x y c 1 0))))) ∧
        (¬ s.interior 1 x y → t.mem.read (s.addr x y c) = s.mem.read (s.addr x y c))

/-- `CONV.OUTLINE` in flight completes: `clamp(8*centre - (sum of the eight neighbours))` (41_convolution.md R150, R145, R146,
R153). -/
def Obligations.OutlineSubtractsEightNeighbours : Prop :=
  ∀ s : State, s.inFlight = some .convOutline →
    ∃ t, exec .convOutline s = .next t ∧ completedFrom s t ∧ sameTables s t ∧ sameOutside s t ∧
      ∀ x y c, s.inImage x y c →
        (s.interior 1 x y → t.mem.read (s.addr x y c) = some (BitVec.ofInt 8 (max 0 (min 255
          (8 * s.near x y c 0 0
            - (s.near x y c (-1) (-1) + s.near x y c 0 (-1) + s.near x y c 1 (-1)
              + s.near x y c (-1) 0 + s.near x y c 1 0
              + s.near x y c (-1) 1 + s.near x y c 0 1 + s.near x y c 1 1)))))) ∧
        (¬ s.interior 1 x y → t.mem.read (s.addr x y c) = s.mem.read (s.addr x y c))

/-- `CONV.EMBOSS` in flight completes, with the rows of the kernel as printed and row 0 the row above (41_convolution.md R151, R145,
R146, R153). -/
def Obligations.EmbossWeighsAsPrinted : Prop :=
  ∀ s : State, s.inFlight = some .convEmboss →
    ∃ t, exec .convEmboss s = .next t ∧ completedFrom s t ∧ sameTables s t ∧ sameOutside s t ∧
      ∀ x y c, s.inImage x y c →
        (s.interior 1 x y → t.mem.read (s.addr x y c) = some (BitVec.ofInt 8 (max 0 (min 255
          (-(s.near x y c (-1) (-1)) + s.near x y c 0 (-1) + s.near x y c 1 (-1)
            - 2 * s.near x y c (-1) 0 - s.near x y c 0 0
            + s.near x y c 0 1 + 2 * s.near x y c 1 1))))) ∧
        (¬ s.interior 1 x y → t.mem.read (s.addr x y c) = s.mem.read (s.addr x y c))

/-- `CONV.CUSTOM` in flight with a side of 1, 3 or 5 and a nonzero divisor completes: in the write region (border `half` for
`GRAY8`, 1 for `RGB24`) every channel becomes the rounded, clamped quotient of the tap sum by the divisor, taps outside the image
adding nothing; all other bytes are as before (41_convolution.md R152, R143, R144, R145, R146, R153, 10_state.md R32). -/
def Obligations.CustomKernelConvolves : Prop :=
  ∀ (s : State) (half b : Nat), s.inFlight = some .convCustom →
    (s.kside = 1 ∨ s.kside = 3 ∨ s.kside = 5) → s.kdiv ≠ 0 →
    2 * half + 1 = s.kside.toNat → b = (if s.fmt = 0 then half else 1) →
    ∃ t, exec .convCustom s = .next t ∧ completedFrom s t ∧ sameTables s t ∧ sameOutside s t ∧
      ∀ x y c, s.inImage x y c →
        (s.interior b x y → t.mem.read (s.addr x y c) = some (BitVec.ofInt 8 (max 0 (min 255
          ((2 * (∑ r ∈ Finset.range (2 * half + 1), ∑ q ∈ Finset.range (2 * half + 1),
              if half ≤ x + q ∧ x + q < s.imgW + half ∧ half ≤ y + r ∧ y + r < s.imgH + half then
                ((s.kcoef[r * (2 * half + 1) + q]?).getD 0).toInt
                  * s.near x y c ((q : Int) - half) ((r : Int) - half)
              else 0)
            + (s.kdiv.toNat : Int)) / (2 * (s.kdiv.toNat : Int))))))) ∧
        (¬ s.interior b x y → t.mem.read (s.addr x y c) = s.mem.read (s.addr x y c))

/-- `CONV.CUSTOM` in flight with an even side completes and writes nothing, whatever the divisor (41_convolution.md R152). -/
def Obligations.CustomEvenSideWritesNothing : Prop :=
  ∀ s : State, s.inFlight = some .convCustom → (s.kside = 0 ∨ s.kside = 2 ∨ s.kside = 4 ∨ s.kside = 6) →
    ∃ t, exec .convCustom s = .next t ∧ completedFrom s t ∧ sameTables s t ∧ sameMemory s t

/-- Laws of the convolutions (41_convolution.md R154): the border ring is untouched by the catalog kernels; a uniform image is a
fixed point of every kernel whose weights sum to 1 and whose taps are all inside; `CONV.OUTLINE` blackens its interior; an image
narrower or lower than 3 is unchanged by the catalog. -/
def Obligations.ConvolutionLaws : Prop :=
  (∀ (s t : State) (i : Instr), i ∈ catalog → s.inFlight = some i → exec i s = .next t →
    ∀ x y c, s.inImage x y c → x = 0 ∨ y = 0 ∨ x + 1 = s.imgW ∨ y + 1 = s.imgH →
      t.mem.read (s.addr x y c) = s.mem.read (s.addr x y c)) ∧
  (∀ (s t : State) (i : Instr) (u : Nat → Byte),
    (∀ x y c, s.inImage x y c → s.mem.read (s.addr x y c) = some (u c)) →
    (i ∈ catalog ∧ i ≠ .convOutline) ∨
      (i = .convCustom ∧ (s.kside = 1 ∨ s.kside = 3 ∨ (s.kside = 5 ∧ s.fmt = 0)) ∧ s.kdiv ≠ 0 ∧
        (∑ n ∈ Finset.range (s.kside.toNat * s.kside.toNat), ((s.kcoef[n]?).getD 0).toInt) = (s.kdiv.toNat : Int)) →
    s.inFlight = some i → exec i s = .next t →
    ∀ x y c, s.inImage x y c → t.mem.read (s.addr x y c) = some (u c)) ∧
  (∀ (s t : State) (u : Nat → Byte),
    (∀ x y c, s.inImage x y c → s.mem.read (s.addr x y c) = some (u c)) →
    s.inFlight = some .convOutline → exec .convOutline s = .next t →
    ∀ x y c, s.inImage x y c → s.interior 1 x y → t.mem.read (s.addr x y c) = some 0) ∧
  (∀ (s t : State) (i : Instr), i ∈ catalog → s.imgW < 3 ∨ s.imgH < 3 →
    s.inFlight = some i → exec i s = .next t → sameMemory s t)

/-! ## EQUALIZE -/

/-- `EQUALIZE` in flight completes and leaves in `HIST` the number of pixels of each intensity and in `CDF` their running sums,
ending at the number of pixels; no count overflows 32 bits; the first nonzero `CDF` entry is the count of the darkest intensity
present (42_equalize.md R171, 10_state.md R34, R35). -/
def Obligations.EqualizeCountsIntensities : Prop :=
  ∀ s : State, s.inFlight = some .equalize →
    ∃ t, exec .equalize s = .next t ∧ completedFrom s t ∧ sameOutside s t ∧
      (∀ (i : Nat) (h : i < 256), t.hist[i].toNat = s.countAt i ∧ t.cdf[i].toNat = s.countUpTo i) ∧
      t.cdf[0].toNat = t.hist[0].toNat ∧
      (∀ (i : Nat) (h : i + 1 < 256), t.cdf[i + 1].toNat = t.cdf[i].toNat + t.hist[i + 1].toNat) ∧
      t.cdf[255].toNat = s.imgW * s.imgH ∧
      (∀ (d : Nat) (h : d < 256), s.darkest d →
        t.cdf[d] = t.hist[d] ∧ 0 < t.hist[d].toNat ∧ ∀ (i : Nat) (hi : i < d), t.cdf[i].toNat = 0)

/-- `EQUALIZE` on an image with two intensities builds the look-up table, and an entry is
`rhu(255*(CDF[i]-cmin), N-cmin)` where `CDF[i] > 0`, else 0 (42_equalize.md R172, R171). -/
def Obligations.EqualizeBuildsTheLut : Prop :=
  ∀ (s : State) (d : Nat), s.inFlight = some .equalize → s.twoIntensities → s.darkest d →
    ∃ t, exec .equalize s = .next t ∧ completedFrom s t ∧ sameOutside s t ∧
      ∀ (i : Nat) (h : i < 256), t.lut[i] =
        if s.countUpTo i = 0 then 0
        else BitVec.ofInt 8 ((2 * (255 * ((s.countUpTo i : Int) - s.countAt d)) + ((s.imgW * s.imgH : Int) - s.countAt d))
          / (2 * ((s.imgW * s.imgH : Int) - s.countAt d)))

/-- `EQUALIZE` on a `GRAY8` image with two intensities replaces every byte `v` by `LUT[v]`, with the table just built
(42_equalize.md R176). -/
def Obligations.EqualizeMapsGrayBytes : Prop :=
  ∀ s : State, s.inFlight = some .equalize → s.fmt = 0 → s.twoIntensities →
    ∃ t, exec .equalize s = .next t ∧ completedFrom s t ∧ sameOutside s t ∧
      ∀ a, a < s.nBytes → ∃ v, t.lut[(s.pix a).toNat]? = some v ∧ t.mem.read a = some v

/-- `EQUALIZE` on an `RGB24` image with two intensities: each pixel keeps its `U5` and `V5`, takes `LUT[Yr]` for its luminance and
is transformed back (42_equalize.md R177, R173, R174). -/
def Obligations.EqualizeMapsColourPixels : Prop :=
  ∀ s : State, s.inFlight = some .equalize → s.fmt = 1 → s.twoIntensities →
    ∃ t, exec .equalize s = .next t ∧ completedFrom s t ∧ sameOutside s t ∧
      ∀ (x y : Nat) (r g b u5 v5 e : Int), x < s.imgW → y < s.imgH →
        r = s.near x y 0 0 0 → g = s.near x y 1 0 0 → b = s.near x y 2 0 0 →
        u5 = -14713 * r - 28886 * g + 43600 * b → v5 = 61500 * r - 51499 * g - 10001 * b → e = 10 ^ 10 →
        ∃ m : Byte, t.lut[s.brightness x y]? = some m ∧
          t.mem.read (s.addr x y 0) =
            some (BitVec.ofInt 8 (max 0 (min 255 ((2 * (m.toNat * e + 113983 * v5) + e) / (2 * e))))) ∧
          t.mem.read (s.addr x y 1) =
            some (BitVec.ofInt 8 (max 0 (min 255 ((2 * (m.toNat * e - 39465 * u5 - 58060 * v5) + e) / (2 * e))))) ∧
          t.mem.read (s.addr x y 2) =
            some (BitVec.ofInt 8 (max 0 (min 255 ((2 * (m.toNat * e + 203211 * u5) + e) / (2 * e)))))

/-- A degenerate `EQUALIZE`, all pixels of one intensity or no pixel at all, completes with `HIST` and `CDF` written and neither
`LUT` nor any byte of memory changed (42_equalize.md R175). -/
def Obligations.EqualizeDegenerateLeavesImageAndLut : Prop :=
  ∀ s : State, s.inFlight = some .equalize → ¬ s.twoIntensities →
    ∃ t, exec .equalize s = .next t ∧ completedFrom s t ∧ t.lut = s.lut ∧ sameMemory s t ∧
      ∀ (i : Nat) (h : i < 256), t.hist[i].toNat = s.countAt i ∧ t.cdf[i].toNat = s.countUpTo i

/-- The look-up table never decreases, is 0 up to the darkest intensity present and 255 from the brightest upward
(42_equalize.md R172, R178 (4)). -/
def Obligations.EqualizeSpreadsDarkestToBrightest : Prop :=
  ∀ (s t : State) (d b : Nat), s.inFlight = some .equalize → s.twoIntensities → s.darkest d → s.brightest b →
    exec .equalize s = .next t →
      (∀ (i j : Nat) (hi : i < 256) (hj : j < 256), i ≤ j → t.lut[i].toNat ≤ t.lut[j].toNat) ∧
      (∀ (i : Nat) (hi : i < 256), i ≤ d → t.lut[i] = 0) ∧
      (∀ (i : Nat) (hi : i < 256), b ≤ i → t.lut[i] = 255)

/-- The ranges of the colour-space transform (42_equalize.md R173, R174): every intermediate value fits the stated width, and the
rounded luminance lies in 0..255. -/
def Obligations.ColourTransformStaysInRange : Prop :=
  ∀ p : Rgb,
    (0 ≤ (forward p).y5 ∧ (forward p).y5 ≤ 25500000) ∧
    (-11117745 ≤ (forward p).u5 ∧ (forward p).u5 ≤ 11118000) ∧
    (-15682500 ≤ (forward p).v5 ∧ (forward p).v5 ≤ 15682500) ∧
    roundedLuma p ≤ 255 ∧
    2 * (roundedLuma p : Int) * 100000 ≤ 2 * (forward p).y5 + 100000 ∧
    2 * (forward p).y5 + 100000 < 2 * ((roundedLuma p : Int) + 1) * 100000 ∧
    ∀ ym : Byte,
      |(ym.toNat : Int) * 10 ^ 10 + 113983 * (forward p).v5| < 44 * 10 ^ 11 ∧
      |(ym.toNat : Int) * 10 ^ 10 - 39465 * (forward p).u5 - 58060 * (forward p).v5| < 40 * 10 ^ 11 ∧
      |(ym.toNat : Int) * 10 ^ 10 + 203211 * (forward p).u5| < 49 * 10 ^ 11

/-- A gray pixel of a colour image has its own value as luminance, and its inverse transform is gray for every mapped luminance
(42_equalize.md R178 (2)). -/
def Obligations.GrayPixelsStayGray : Prop :=
  ∀ v ym : Byte,
    (forward ⟨v, v, v⟩).y5 = 100000 * (v.toNat : Int) ∧ roundedLuma ⟨v, v, v⟩ = v.toNat ∧
    (forward ⟨v, v, v⟩).v5 = 0 ∧ (forward ⟨v, v, v⟩).u5 = (v.toNat : Int) ∧
    inverse ym (forward ⟨v, v, v⟩).u5 (forward ⟨v, v, v⟩).v5 = ⟨ym, ym, ym⟩

/-! ## Host accesses -/

/-- A host write to a configuration register stores its assigned bits and changes nothing else (10_state.md R25 to R29, R32, 20_memory.md
R66). -/
def Obligations.ConfigurationWritesStoreTheAssignedBits : Prop :=
  ∀ (s : State) (v : Word) (rest : List HostOp), s.ready →
    (s.script = .regWrite 0x008 v :: rest → step s = .next { s with width := v.extractLsb' 0 16, script := rest }) ∧
    (s.script = .regWrite 0x00C v :: rest → step s = .next { s with height := v.extractLsb' 0 16, script := rest }) ∧
    (s.script = .regWrite 0x010 v :: rest → step s = .next { s with fmt := v.extractLsb' 0 1, script := rest }) ∧
    (s.script = .regWrite 0x014 v :: rest → step s = .next { s with kside := v.extractLsb' 0 3, script := rest }) ∧
    (s.script = .regWrite 0x018 v :: rest → step s = .next { s with kdiv := v.extractLsb' 0 16, script := rest }) ∧
    (∀ (i : Nat) (h : i < 25), s.script = .regWrite (0x040 + 4 * i) v :: rest →
      step s = .next { s with kcoef := s.kcoef.set i (v.extractLsb' 0 16), script := rest })

/-- A host read outside the busy window answers the value of the register map, unassigned bits 0, and changes nothing else; of `STATUS`,
bit 0 is `BUSY`, bit 1 `DONE`, bit 2 `ERR`, bits 7:4 `ERRCODE` and every other bit 0
(10_state.md R22 to R29, R32, R34 to R36, 20_memory.md R66). -/
def Obligations.RegisterReadsFollowTheMap : Prop :=
  ∀ (s : State) (rest : List HostOp) (off : Nat), s.ready → s.script = .regRead off :: rest →
    off % 4 = 0 → off < 0x1000 →
    ∃ v : Word,
      step s = .next { s with script := rest, answers := .reg off v :: s.answers } ∧
      (off = 0x000 → v = s.cmd) ∧
      (off = 0x004 → v = s.status.word ∧
        v.toNat = s.status.busy.toNat + 2 * s.status.done.toNat + 4 * s.status.err.toNat
          + 16 * s.status.errCode.toNat) ∧
      (off = 0x008 → v.toNat = s.width.toNat) ∧
      (off = 0x00C → v.toNat = s.height.toNat) ∧
      (off = 0x010 → v.toNat = s.fmt.toNat) ∧
      (off = 0x014 → v.toNat = s.kside.toNat) ∧
      (off = 0x018 → v.toNat = s.kdiv.toNat) ∧
      (∀ (i : Nat) (h : i < 25), off = 0x040 + 4 * i → v.toNat = s.kcoef[i].toNat) ∧
      (∀ (i : Nat) (h : i < 256), off = 0x400 + 4 * i → v = s.hist[i]) ∧
      (∀ (i : Nat) (h : i < 256), off = 0x800 + 4 * i → v = s.cdf[i]) ∧
      (∀ (i : Nat) (h : i < 256), off = 0xC00 + 4 * i → v.toNat = s.lut[i].toNat)

/-- Reserved offsets read 0 and ignore writes; an offset that is not a multiple of 4 or not below 0x1000 is no access to the block,
and the model refuses it (10_state.md R38; the refusal is the treatment of 93_implementation_defined.md U5). -/
def Obligations.ReservedOffsetsReadZeroAndIgnoreWrites : Prop :=
  ∀ (s : State) (v : Word) (rest : List HostOp) (off : Nat), s.ready →
    ((0x01C ≤ off ∧ off ≤ 0x03C) ∨ (0x0A4 ≤ off ∧ off ≤ 0x3FC) → off % 4 = 0 →
      (s.script = .regRead off :: rest →
        step s = .next { s with script := rest, answers := .reg off 0 :: s.answers }) ∧
      (s.script = .regWrite off v :: rest → step s = .next { s with script := rest })) ∧
    (off % 4 ≠ 0 ∨ 0x1000 ≤ off →
      (s.script = .regRead off :: rest → step s = .refused (.noSuchRegister off)) ∧
      (s.script = .regWrite off v :: rest → step s = .refused (.noSuchRegister off)))

/-- Writes to the read-only registers `STATUS`, `HIST`, `CDF`, `LUT` change nothing (10_state.md R22, R24, R34 to R36, 20_memory.md
R66). -/
def Obligations.ReadOnlyRegistersIgnoreWrites : Prop :=
  ∀ (s : State) (v : Word) (rest : List HostOp) (off : Nat), s.ready →
    off = 0x004 ∨ (0x400 ≤ off ∧ off < 0x1000 ∧ off % 4 = 0) →
    s.script = .regWrite off v :: rest → step s = .next { s with script := rest }

/-- `PixWrite(a, b)` with `a < PIXCAP` stores the byte, leaves every other byte and every register alone, and is refused at
`a ≥ PIXCAP` (20_memory.md R61, R64, R70). -/
def Obligations.PixelWriteStoresOneByte : Prop :=
  ∀ (s : State) (a : Nat) (b : Byte) (rest : List HostOp), s.ready → s.script = .pixWrite a b :: rest →
    (a < s.pixcap →
      ∃ t, step s = .next t ∧ t.mem.read a = some b ∧ (∀ a', a' ≠ a → t.mem.read a' = s.mem.read a') ∧
        t = { s with script := rest, mem := t.mem }) ∧
    (s.pixcap ≤ a → step s = .refused (.noSuchPixel a))

/-- `PixRead(a)` with `a < PIXCAP` answers the byte written last at `a`, answers some byte where none was written, and changes
neither registers nor memory; it is refused at `a ≥ PIXCAP` (20_memory.md R61, R64, R66, R70; the draw counter is the model's own,
log 2). -/
def Obligations.PixelReadAnswersTheByte : Prop :=
  ∀ (s : State) (a : Nat) (rest : List HostOp), s.ready → s.script = .pixRead a :: rest →
    (a < s.pixcap →
      ∃ b, (∀ b', s.mem.read a = some b' → b = b') ∧
        step s = .next { s with script := rest, answers := .pix a b :: s.answers, draws := s.draws + 1 }) ∧
    (s.pixcap ≤ a → step s = .refused (.noSuchPixel a))

/-- The busy hazard (70_reset_and_hazards.md R266). An accepted issue opens the window, a rejected one does not, a completion does
not close it; inside it a read of `STATUS` is defined and closes it exactly when it returns `BUSY = 0`, and every other access
faults. -/
def Obligations.BusyWindowAllowsOnlyStatusReads : Prop :=
  (∀ (s t : State) (w : Word), s.inFlight = none → issue w s = .next t →
    (t.inFlight.isSome = true → t.windowOpen = true) ∧ (t.inFlight = none → t.windowOpen = s.windowOpen)) ∧
  (∀ (s t : State) (i : Instr), s.inFlight = some i → exec i s = .next t → t.windowOpen = s.windowOpen) ∧
  (∀ (s : State) (rest : List HostOp), s.hostTurn → s.windowOpen = true →
    (s.script = .regRead 0x004 :: rest →
      ∃ t, step s = .next t ∧ t.answers = .reg 0x004 s.status.word :: s.answers ∧
        (t.windowOpen = false ↔ s.status.busy = false) ∧ t.script = rest) ∧
    (∀ off, off % 4 = 0 → off < 0x1000 → off ≠ 0x004 → s.script = .regRead off :: rest →
      step s = .fault .busyWindow) ∧
    (∀ off v, off % 4 = 0 → off < 0x1000 → s.script = .regWrite off v :: rest → step s = .fault .busyWindow) ∧
    (∀ a, a < s.pixcap → s.script = .pixRead a :: rest → step s = .fault .busyWindow) ∧
    (∀ a b, a < s.pixcap → s.script = .pixWrite a b :: rest → step s = .fault .busyWindow))

/-- `WAIT` is a read of `STATUS` repeated until it returns `BUSY = 0` (30_encoding.md R100): while it reads 1 it stays the next
access, else the script goes on and the window is closed. -/
def Obligations.WaitPollsUntilNotBusy : Prop :=
  ∀ (s : State) (rest : List HostOp), s.hostTurn → s.script = .wait :: rest →
    ∃ t, step s = .next t ∧ t.answers = .reg 0x004 s.status.word :: s.answers ∧
      t.script = (if s.status.busy then .wait :: rest else rest) ∧
      t.windowOpen = (s.windowOpen && s.status.busy) ∧
      sameConfig s t ∧ sameTables s t ∧ t.mem = s.mem ∧ t.status = s.status ∧ t.inFlight = s.inFlight

/-! ## Reset and the end of a run -/

/-- The state after reset: every register 0, no command in flight, no byte of pixel memory with a value (10_state.md R39). -/
def Obligations.ResetLeavesEveryRegisterZero : Prop :=
  State.reset.cmd = 0 ∧ State.reset.status.word = 0 ∧ State.reset.width = 0 ∧ State.reset.height = 0 ∧
  State.reset.fmt = 0 ∧ State.reset.kside = 0 ∧ State.reset.kdiv = 0 ∧
  (∀ (i : Nat) (h : i < 25), State.reset.kcoef[i] = 0) ∧
  (∀ (i : Nat) (h : i < 256), State.reset.hist[i] = 0 ∧ State.reset.cdf[i] = 0 ∧ State.reset.lut[i] = 0) ∧
  State.reset.inFlight = none ∧ (∀ a, State.reset.mem.read a = none)

/-- A reset at any time, also while a command is in flight: the command is abandoned and has no completion step, every register is 0
and the whole of pixel memory is unspecified (70_reset_and_hazards.md R261, R260). -/
def Obligations.ResetAbandonsTheCommand : Prop :=
  ∀ (s : State) (rest : List HostOp), s.hostTurn → s.script = .reset :: rest →
    ∃ t, step s = .next t ∧ t.status.word = 0 ∧ t.inFlight = none ∧ (∀ a, t.mem.read a = none) ∧
      t.cmd = 0 ∧ t.width = 0 ∧ t.height = 0 ∧ t.fmt = 0 ∧ t.kside = 0 ∧ t.kdiv = 0 ∧
      (∀ (i : Nat) (h : i < 25), t.kcoef[i] = 0) ∧
      (∀ (i : Nat) (h : i < 256), t.hist[i] = 0 ∧ t.cdf[i] = 0 ∧ t.lut[i] = 0) ∧
      t.pixcap = s.pixcap ∧ t.script = rest ∧ t.answers = s.answers

/-- The end of a run (70_reset_and_hazards.md R270): with no access left and nothing in flight a step changes nothing; with no access
left and a command in flight the next step completes it and the run has ended. -/
def Obligations.RunEndsWhenScriptAndEngineRest : Prop :=
  (∀ s : State, s.ended = true → step s = .next s) ∧
  (∀ (s : State) (i : Instr), s.script = [] → s.inFlight = some i →
    ∃ t, step s = .next t ∧ t.ended = true ∧ t.status.word = 0x00000002)

/-! ## The whole machine -/

/-- The invariant holds after reset. -/
def Obligations.InvariantHoldsAtReset : Prop := State.reset.Inv

/-- Every step keeps the invariant: `STATUS` stays one of its eight values, `BUSY` says whether a command is in flight, the busy
window is open while one is, the command in flight is the one in `CMD` and passed its checks, and pixel memory keeps its
canonical form below `PIXCAP` (10_state.md R24, R30, 20_memory.md R75, 70_reset_and_hazards.md R266). -/
def Obligations.EveryStepKeepsTheInvariant : Prop :=
  ∀ s t : State, s.Inv → step s = .next t → t.Inv

/-- A host that keeps the contract never faults and is never refused: from every state that meets the invariant and whose script
keeps the contract a step answers a next state of the same kind (70_reset_and_hazards.md R266, R269). That a script may go on with
any access after a reset, the busy window then being closed, is the model's choice (log 8). -/
def Obligations.ContractKeptMeansNoFault : Prop :=
  ∀ s : State, s.Inv → s.contract = true → ∃ t, step s = .next t ∧ t.Inv ∧ t.contract = true

/-- A command in flight completes after finitely many steps while the host polls (10_state.md R31, 70_reset_and_hazards.md R268): at
most one step more than the schedule has entries. -/
def Obligations.PolledCommandCompletes : Prop :=
  ∀ (s : State) (i : Instr) (rest : List HostOp),
    s.inFlight = some i → s.status.busy = true → s.script = .wait :: rest →
    ∃ k t, k ≤ s.turns.length + 1 ∧ Sys2Proof.core.run k s = .next t ∧ t.inFlight = none ∧
      t.status.word = 0x00000002 ∧ t.script = .wait :: rest ∧ sameConfig s t

/-- `CDF` is the running sum of `HIST` in every state reached from one where it is (10_state.md R35), also across commands that are
not `EQUALIZE`, and across resets. -/
def Obligations.CdfStaysTheRunningSumOfHist : Prop :=
  ∀ s t : State, s.cdfSumsHist → step s = .next t → t.cdfSumsHist

/-- `CDF` is the running sum of `HIST` after reset (10_state.md R39). -/
def Obligations.CdfSumsHistAtReset : Prop := State.reset.cdfSumsHist

/-- No command writes a configuration register: each changes only by a host write to its own offset or by reset, and `PIXCAP` never
(10_state.md R41, 20_memory.md R66, R68). -/
def Obligations.ConfigurationChangesOnlyByItsOwnWrite : Prop :=
  ∀ s t : State, step s = .next t →
    t.pixcap = s.pixcap ∧
    (s.script.head? = some .reset ∨
      ((t.width ≠ s.width → ∃ v, s.script.head? = some (.regWrite 0x008 v)) ∧
        (t.height ≠ s.height → ∃ v, s.script.head? = some (.regWrite 0x00C v)) ∧
        (t.fmt ≠ s.fmt → ∃ v, s.script.head? = some (.regWrite 0x010 v)) ∧
        (t.kside ≠ s.kside → ∃ v, s.script.head? = some (.regWrite 0x014 v)) ∧
        (t.kdiv ≠ s.kdiv → ∃ v, s.script.head? = some (.regWrite 0x018 v)) ∧
        (∀ (i : Nat) (h : i < 25), t.kcoef[i] ≠ s.kcoef[i] →
          ∃ v, s.script.head? = some (.regWrite (0x040 + 4 * i) v)) ∧
        (t.cmd ≠ s.cmd → ∃ v, s.script.head? = some (.regWrite 0x000 v))))

/-- Pixel memory changes only by a `PixWrite` at the address written, by the completion of a command, or by reset; the tables only
by the completion of `EQUALIZE` or by reset (20_memory.md R70, 10_state.md R34 to R37). -/
def Obligations.MemoryAndTablesChangeOnlyByTheirWriters : Prop :=
  ∀ s t : State, step s = .next t →
    (∀ a, t.mem.read a ≠ s.mem.read a →
      (∃ b, s.script.head? = some (.pixWrite a b)) ∨ s.script.head? = some .reset ∨
        (s.inFlight.isSome = true ∧ t.inFlight = none ∧ t.status.word = 0x00000002)) ∧
    (¬ sameTables s t → s.script.head? = some .reset ∨ (s.inFlight = some .equalize ∧ t.inFlight = none))

/-- `STATUS` keeps its value, an error included, until the next write to `CMD`, the completion of the command in flight, or reset; no
read clears it (60_exceptions.md R235, 10_state.md R24, R40). -/
def Obligations.StatusChangesOnlyByIssueCompletionReset : Prop :=
  ∀ s t : State, step s = .next t → t.status ≠ s.status →
    (∃ w, s.script.head? = some (.regWrite 0x000 w)) ∨ s.script.head? = some .reset ∨
      (s.inFlight.isSome = true ∧ t.inFlight = none ∧ t.status.word = 0x00000002)

/-! ## The host software -/

/-- A colour file that loads is written back as it was: every byte a save writes is the byte of the file at that offset, and a file
whose pixel data follow the headers and end the file is covered whole (45_host_bmp_codec.md R214, R207, R211). That a gap between the
headers and the pixel data is not written is the model's choice (log 16). -/
def Obligations.ColourFileRoundTrip : Prop :=
  ∀ (cap : Nat) (f : List Byte) (img : Loaded), loadColor cap f = .ok img →
    (∀ d ∈ saveCells img.md img.width img.height (fun a => img.bytes.getD a 0), f[d.1]? = some d.2) ∧
    (filePixelBase f = 54 → f.length = 54 + img.width * img.height * 3 →
      ∀ off, off < f.length →
        ∃ b, (off, b) ∈ saveCells img.md img.width img.height (fun a => img.bytes.getD a 0))

/-- A grayscale file that loads is written back as it was, byte for byte up to the end of its pixel data (45_host_bmp_codec.md R210,
R214, R203). -/
def Obligations.GrayFileRoundTrip : Prop :=
  ∀ (cap : Nat) (f : List Byte) (img : Loaded), loadGray cap f = .ok img →
    saveCells img.md img.width img.height (fun a => img.bytes.getD a 0) =
      (f.take (1078 + fileDataSize f)).mapIdx fun i b => (i, b)

/-- Running the script of a load from a state in which the host may make any access leaves the dimensions and the format of the image in
the registers and its bytes in pixel memory from address 0 (45_host_bmp_codec.md R207, R208, 10_state.md R25 to R27). -/
def Obligations.LoadScriptFillsPixelMemory : Prop :=
  ∀ (s : State) (img : Loaded) (rest : List HostOp), s.ready → s.script = img.script ++ rest →
    img.width ≤ 65535 → img.height ≤ 65535 → img.bytes.length ≤ s.pixcap →
    ∃ t, Sys2Proof.core.run (3 + img.bytes.length) s = .next t ∧
      t.width.toNat = img.width ∧ t.height.toNat = img.height ∧ t.format = img.format ∧
      (∀ a, t.mem.read a = if h : a < img.bytes.length then some img.bytes[a] else s.mem.read a) ∧
      t.script = rest ∧ sameTables s t ∧ t.status = s.status ∧ t.cmd = s.cmd ∧ t.answers = s.answers

/-- The life of the session's image (45_host_bmp_codec.md R202, R206, R213, R217). A load that succeeds makes the accesses of its image and
leaves that image, with its metadata, as the session's only one; a load that fails and a discard leave none, and then `save`,
`applyFilter` and `describe` are the host's error "no image loaded". Whatever a failed load has written (free; log 19), the machine
takes it: no access faults, and nothing changes but `WIDTH`, `HEIGHT`, `FMT` and pixel memory. -/
def Obligations.SessionHoldsTheLoadedImage : Prop :=
  (∀ (ss : Session) (cap : Nat) (file : Option (List Byte)) (part : List HostOp) (img : Loaded),
    loadFile cap file = .ok img →
      (ss.load cap file part).session.image = some ⟨img.width, img.height, img.md⟩ ∧
      (ss.load cap file part).accesses = img.script ∧ (ss.load cap file part).error = none) ∧
  (∀ (ss : Session) (cap : Nat) (file : Option (List Byte)) (part : List HostOp) (e : CodecError),
    loadFile cap file = .error e →
      (ss.load cap file part).session.image = none ∧ (ss.load cap file part).error = some (.codec e) ∧
      ∀ (s : State) (rest : List HostOp), s.ready → s.pixcap = cap →
        s.script = (ss.load cap file part).accesses ++ rest →
        ∃ t, Sys2Proof.core.run (ss.load cap file part).accesses.length s = .next t ∧
          t = { s with width := t.width, height := t.height, fmt := t.fmt, mem := t.mem, script := rest }) ∧
  (∀ ss : Session, ss.discard.session.image = none ∧ ss.discard.accesses = []) ∧
  (∀ (ss : Session) (i : Instr) (dest : Option Nat) (pix : Nat → Byte), ss.image = none →
    ss.applyFilter i = .error .noImage ∧ ss.saveScript = .error .noImage ∧ ss.save dest pix = .error .noImage ∧
    ss.describe = .error .noImage)
end

