-- ==== Sys2Proof/Laws/State.lean ====
section
/-! SUPPORT. One lemma per field of State and update of State, each true by rfl: no later proof unfolds a record update. -/

namespace Sys2Proof.Machine

/-! ### State.store -/

@[simp] theorem State.store_pixcap (s : State) (cells : List Host.Cell) : (s.store cells).pixcap = s.pixcap := rfl
@[simp] theorem State.store_cmd (s : State) (cells : List Host.Cell) : (s.store cells).cmd = s.cmd := rfl
@[simp] theorem State.store_status (s : State) (cells : List Host.Cell) : (s.store cells).status = s.status := rfl
@[simp] theorem State.store_width (s : State) (cells : List Host.Cell) : (s.store cells).width = s.width := rfl
@[simp] theorem State.store_height (s : State) (cells : List Host.Cell) : (s.store cells).height = s.height := rfl
@[simp] theorem State.store_fmt (s : State) (cells : List Host.Cell) : (s.store cells).fmt = s.fmt := rfl
@[simp] theorem State.store_kside (s : State) (cells : List Host.Cell) : (s.store cells).kside = s.kside := rfl
@[simp] theorem State.store_kdiv (s : State) (cells : List Host.Cell) : (s.store cells).kdiv = s.kdiv := rfl
@[simp] theorem State.store_kcoef (s : State) (cells : List Host.Cell) : (s.store cells).kcoef = s.kcoef := rfl
@[simp] theorem State.store_hist (s : State) (cells : List Host.Cell) : (s.store cells).hist = s.hist := rfl
@[simp] theorem State.store_cdf (s : State) (cells : List Host.Cell) : (s.store cells).cdf = s.cdf := rfl
@[simp] theorem State.store_lut (s : State) (cells : List Host.Cell) : (s.store cells).lut = s.lut := rfl
@[simp] theorem State.store_mem (s : State) (cells : List Host.Cell) : (s.store cells).mem = s.mem.writeAll cells := rfl
@[simp] theorem State.store_inFlight (s : State) (cells : List Host.Cell) : (s.store cells).inFlight = s.inFlight := rfl
@[simp] theorem State.store_windowOpen (s : State) (cells : List Host.Cell) : (s.store cells).windowOpen = s.windowOpen := rfl
@[simp] theorem State.store_script (s : State) (cells : List Host.Cell) : (s.store cells).script = s.script := rfl
@[simp] theorem State.store_turns (s : State) (cells : List Host.Cell) : (s.store cells).turns = s.turns := rfl
@[simp] theorem State.store_answers (s : State) (cells : List Host.Cell) : (s.store cells).answers = s.answers := rfl
@[simp] theorem State.store_draws (s : State) (cells : List Host.Cell) : (s.store cells).draws = s.draws := rfl

/-! ### State.reject -/

@[simp] theorem State.reject_pixcap (s : State) (k : ErrCode) : (s.reject k).pixcap = s.pixcap := rfl
@[simp] theorem State.reject_cmd (s : State) (k : ErrCode) : (s.reject k).cmd = s.cmd := rfl
@[simp] theorem State.reject_status (s : State) (k : ErrCode) : (s.reject k).status = Status.rejected k := rfl
@[simp] theorem State.reject_width (s : State) (k : ErrCode) : (s.reject k).width = s.width := rfl
@[simp] theorem State.reject_height (s : State) (k : ErrCode) : (s.reject k).height = s.height := rfl
@[simp] theorem State.reject_fmt (s : State) (k : ErrCode) : (s.reject k).fmt = s.fmt := rfl
@[simp] theorem State.reject_kside (s : State) (k : ErrCode) : (s.reject k).kside = s.kside := rfl
@[simp] theorem State.reject_kdiv (s : State) (k : ErrCode) : (s.reject k).kdiv = s.kdiv := rfl
@[simp] theorem State.reject_kcoef (s : State) (k : ErrCode) : (s.reject k).kcoef = s.kcoef := rfl
@[simp] theorem State.reject_hist (s : State) (k : ErrCode) : (s.reject k).hist = s.hist := rfl
@[simp] theorem State.reject_cdf (s : State) (k : ErrCode) : (s.reject k).cdf = s.cdf := rfl
@[simp] theorem State.reject_lut (s : State) (k : ErrCode) : (s.reject k).lut = s.lut := rfl
@[simp] theorem State.reject_mem (s : State) (k : ErrCode) : (s.reject k).mem = s.mem := rfl
@[simp] theorem State.reject_inFlight (s : State) (k : ErrCode) : (s.reject k).inFlight = s.inFlight := rfl
@[simp] theorem State.reject_windowOpen (s : State) (k : ErrCode) : (s.reject k).windowOpen = s.windowOpen := rfl
@[simp] theorem State.reject_script (s : State) (k : ErrCode) : (s.reject k).script = s.script := rfl
@[simp] theorem State.reject_turns (s : State) (k : ErrCode) : (s.reject k).turns = s.turns := rfl
@[simp] theorem State.reject_answers (s : State) (k : ErrCode) : (s.reject k).answers = s.answers := rfl
@[simp] theorem State.reject_draws (s : State) (k : ErrCode) : (s.reject k).draws = s.draws := rfl

/-! ### State.accept -/

@[simp] theorem State.accept_pixcap (s : State) (i : Instr) : (s.accept i).pixcap = s.pixcap := rfl
@[simp] theorem State.accept_cmd (s : State) (i : Instr) : (s.accept i).cmd = s.cmd := rfl
@[simp] theorem State.accept_status (s : State) (i : Instr) : (s.accept i).status = Status.inFlight := rfl
@[simp] theorem State.accept_width (s : State) (i : Instr) : (s.accept i).width = s.width := rfl
@[simp] theorem State.accept_height (s : State) (i : Instr) : (s.accept i).height = s.height := rfl
@[simp] theorem State.accept_fmt (s : State) (i : Instr) : (s.accept i).fmt = s.fmt := rfl
@[simp] theorem State.accept_kside (s : State) (i : Instr) : (s.accept i).kside = s.kside := rfl
@[simp] theorem State.accept_kdiv (s : State) (i : Instr) : (s.accept i).kdiv = s.kdiv := rfl
@[simp] theorem State.accept_kcoef (s : State) (i : Instr) : (s.accept i).kcoef = s.kcoef := rfl
@[simp] theorem State.accept_hist (s : State) (i : Instr) : (s.accept i).hist = s.hist := rfl
@[simp] theorem State.accept_cdf (s : State) (i : Instr) : (s.accept i).cdf = s.cdf := rfl
@[simp] theorem State.accept_lut (s : State) (i : Instr) : (s.accept i).lut = s.lut := rfl
@[simp] theorem State.accept_mem (s : State) (i : Instr) : (s.accept i).mem = s.mem := rfl
@[simp] theorem State.accept_inFlight (s : State) (i : Instr) : (s.accept i).inFlight = some i := rfl
@[simp] theorem State.accept_windowOpen (s : State) (i : Instr) : (s.accept i).windowOpen = true := rfl
@[simp] theorem State.accept_script (s : State) (i : Instr) : (s.accept i).script = s.script := rfl
@[simp] theorem State.accept_turns (s : State) (i : Instr) : (s.accept i).turns = s.turns := rfl
@[simp] theorem State.accept_answers (s : State) (i : Instr) : (s.accept i).answers = s.answers := rfl
@[simp] theorem State.accept_draws (s : State) (i : Instr) : (s.accept i).draws = s.draws := rfl

/-! ### State.complete -/

@[simp] theorem State.complete_pixcap (s : State) : (s.complete).pixcap = s.pixcap := rfl
@[simp] theorem State.complete_cmd (s : State) : (s.complete).cmd = s.cmd := rfl
@[simp] theorem State.complete_status (s : State) : (s.complete).status = Status.completed := rfl
@[simp] theorem State.complete_width (s : State) : (s.complete).width = s.width := rfl
@[simp] theorem State.complete_height (s : State) : (s.complete).height = s.height := rfl
@[simp] theorem State.complete_fmt (s : State) : (s.complete).fmt = s.fmt := rfl
@[simp] theorem State.complete_kside (s : State) : (s.complete).kside = s.kside := rfl
@[simp] theorem State.complete_kdiv (s : State) : (s.complete).kdiv = s.kdiv := rfl
@[simp] theorem State.complete_kcoef (s : State) : (s.complete).kcoef = s.kcoef := rfl
@[simp] theorem State.complete_hist (s : State) : (s.complete).hist = s.hist := rfl
@[simp] theorem State.complete_cdf (s : State) : (s.complete).cdf = s.cdf := rfl
@[simp] theorem State.complete_lut (s : State) : (s.complete).lut = s.lut := rfl
@[simp] theorem State.complete_mem (s : State) : (s.complete).mem = s.mem := rfl
@[simp] theorem State.complete_inFlight (s : State) : (s.complete).inFlight = none := rfl
@[simp] theorem State.complete_windowOpen (s : State) : (s.complete).windowOpen = s.windowOpen := rfl
@[simp] theorem State.complete_script (s : State) : (s.complete).script = s.script := rfl
@[simp] theorem State.complete_turns (s : State) : (s.complete).turns = s.turns := rfl
@[simp] theorem State.complete_answers (s : State) : (s.complete).answers = s.answers := rfl
@[simp] theorem State.complete_draws (s : State) : (s.complete).draws = s.draws + 1 := rfl

/-! ### State.setHistCdf -/

@[simp] theorem State.setHistCdf_pixcap (s : State) (h c : List Nat) : (s.setHistCdf h c).pixcap = s.pixcap := rfl
@[simp] theorem State.setHistCdf_cmd (s : State) (h c : List Nat) : (s.setHistCdf h c).cmd = s.cmd := rfl
@[simp] theorem State.setHistCdf_status (s : State) (h c : List Nat) : (s.setHistCdf h c).status = s.status := rfl
@[simp] theorem State.setHistCdf_width (s : State) (h c : List Nat) : (s.setHistCdf h c).width = s.width := rfl
@[simp] theorem State.setHistCdf_height (s : State) (h c : List Nat) : (s.setHistCdf h c).height = s.height := rfl
@[simp] theorem State.setHistCdf_fmt (s : State) (h c : List Nat) : (s.setHistCdf h c).fmt = s.fmt := rfl
@[simp] theorem State.setHistCdf_kside (s : State) (h c : List Nat) : (s.setHistCdf h c).kside = s.kside := rfl
@[simp] theorem State.setHistCdf_kdiv (s : State) (h c : List Nat) : (s.setHistCdf h c).kdiv = s.kdiv := rfl
@[simp] theorem State.setHistCdf_kcoef (s : State) (h c : List Nat) : (s.setHistCdf h c).kcoef = s.kcoef := rfl
@[simp] theorem State.setHistCdf_hist (s : State) (h c : List Nat) : (s.setHistCdf h c).hist = wordTable h := rfl
@[simp] theorem State.setHistCdf_cdf (s : State) (h c : List Nat) : (s.setHistCdf h c).cdf = wordTable c := rfl
@[simp] theorem State.setHistCdf_lut (s : State) (h c : List Nat) : (s.setHistCdf h c).lut = s.lut := rfl
@[simp] theorem State.setHistCdf_mem (s : State) (h c : List Nat) : (s.setHistCdf h c).mem = s.mem := rfl
@[simp] theorem State.setHistCdf_inFlight (s : State) (h c : List Nat) : (s.setHistCdf h c).inFlight = s.inFlight := rfl
@[simp] theorem State.setHistCdf_windowOpen (s : State) (h c : List Nat) : (s.setHistCdf h c).windowOpen = s.windowOpen := rfl
@[simp] theorem State.setHistCdf_script (s : State) (h c : List Nat) : (s.setHistCdf h c).script = s.script := rfl
@[simp] theorem State.setHistCdf_turns (s : State) (h c : List Nat) : (s.setHistCdf h c).turns = s.turns := rfl
@[simp] theorem State.setHistCdf_answers (s : State) (h c : List Nat) : (s.setHistCdf h c).answers = s.answers := rfl
@[simp] theorem State.setHistCdf_draws (s : State) (h c : List Nat) : (s.setHistCdf h c).draws = s.draws := rfl

/-! ### State.setLut -/

@[simp] theorem State.setLut_pixcap (s : State) (f : Nat → Byte) : (s.setLut f).pixcap = s.pixcap := rfl
@[simp] theorem State.setLut_cmd (s : State) (f : Nat → Byte) : (s.setLut f).cmd = s.cmd := rfl
@[simp] theorem State.setLut_status (s : State) (f : Nat → Byte) : (s.setLut f).status = s.status := rfl
@[simp] theorem State.setLut_width (s : State) (f : Nat → Byte) : (s.setLut f).width = s.width := rfl
@[simp] theorem State.setLut_height (s : State) (f : Nat → Byte) : (s.setLut f).height = s.height := rfl
@[simp] theorem State.setLut_fmt (s : State) (f : Nat → Byte) : (s.setLut f).fmt = s.fmt := rfl
@[simp] theorem State.setLut_kside (s : State) (f : Nat → Byte) : (s.setLut f).kside = s.kside := rfl
@[simp] theorem State.setLut_kdiv (s : State) (f : Nat → Byte) : (s.setLut f).kdiv = s.kdiv := rfl
@[simp] theorem State.setLut_kcoef (s : State) (f : Nat → Byte) : (s.setLut f).kcoef = s.kcoef := rfl
@[simp] theorem State.setLut_hist (s : State) (f : Nat → Byte) : (s.setLut f).hist = s.hist := rfl
@[simp] theorem State.setLut_cdf (s : State) (f : Nat → Byte) : (s.setLut f).cdf = s.cdf := rfl
@[simp] theorem State.setLut_lut (s : State) (f : Nat → Byte) : (s.setLut f).lut = byteTable f := rfl
@[simp] theorem State.setLut_mem (s : State) (f : Nat → Byte) : (s.setLut f).mem = s.mem := rfl
@[simp] theorem State.setLut_inFlight (s : State) (f : Nat → Byte) : (s.setLut f).inFlight = s.inFlight := rfl
@[simp] theorem State.setLut_windowOpen (s : State) (f : Nat → Byte) : (s.setLut f).windowOpen = s.windowOpen := rfl
@[simp] theorem State.setLut_script (s : State) (f : Nat → Byte) : (s.setLut f).script = s.script := rfl
@[simp] theorem State.setLut_turns (s : State) (f : Nat → Byte) : (s.setLut f).turns = s.turns := rfl
@[simp] theorem State.setLut_answers (s : State) (f : Nat → Byte) : (s.setLut f).answers = s.answers := rfl
@[simp] theorem State.setLut_draws (s : State) (f : Nat → Byte) : (s.setLut f).draws = s.draws := rfl

/-! ### State.setCmd -/

@[simp] theorem State.setCmd_pixcap (s : State) (w : Word) : (s.setCmd w).pixcap = s.pixcap := rfl
@[simp] theorem State.setCmd_cmd (s : State) (w : Word) : (s.setCmd w).cmd = w := rfl
@[simp] theorem State.setCmd_status (s : State) (w : Word) : (s.setCmd w).status = s.status := rfl
@[simp] theorem State.setCmd_width (s : State) (w : Word) : (s.setCmd w).width = s.width := rfl
@[simp] theorem State.setCmd_height (s : State) (w : Word) : (s.setCmd w).height = s.height := rfl
@[simp] theorem State.setCmd_fmt (s : State) (w : Word) : (s.setCmd w).fmt = s.fmt := rfl
@[simp] theorem State.setCmd_kside (s : State) (w : Word) : (s.setCmd w).kside = s.kside := rfl
@[simp] theorem State.setCmd_kdiv (s : State) (w : Word) : (s.setCmd w).kdiv = s.kdiv := rfl
@[simp] theorem State.setCmd_kcoef (s : State) (w : Word) : (s.setCmd w).kcoef = s.kcoef := rfl
@[simp] theorem State.setCmd_hist (s : State) (w : Word) : (s.setCmd w).hist = s.hist := rfl
@[simp] theorem State.setCmd_cdf (s : State) (w : Word) : (s.setCmd w).cdf = s.cdf := rfl
@[simp] theorem State.setCmd_lut (s : State) (w : Word) : (s.setCmd w).lut = s.lut := rfl
@[simp] theorem State.setCmd_mem (s : State) (w : Word) : (s.setCmd w).mem = s.mem := rfl
@[simp] theorem State.setCmd_inFlight (s : State) (w : Word) : (s.setCmd w).inFlight = s.inFlight := rfl
@[simp] theorem State.setCmd_windowOpen (s : State) (w : Word) : (s.setCmd w).windowOpen = s.windowOpen := rfl
@[simp] theorem State.setCmd_script (s : State) (w : Word) : (s.setCmd w).script = s.script := rfl
@[simp] theorem State.setCmd_turns (s : State) (w : Word) : (s.setCmd w).turns = s.turns := rfl
@[simp] theorem State.setCmd_answers (s : State) (w : Word) : (s.setCmd w).answers = s.answers := rfl
@[simp] theorem State.setCmd_draws (s : State) (w : Word) : (s.setCmd w).draws = s.draws := rfl

/-! ### State.answer -/

@[simp] theorem State.answer_pixcap (s : State) (a : Answer) : (s.answer a).pixcap = s.pixcap := rfl
@[simp] theorem State.answer_cmd (s : State) (a : Answer) : (s.answer a).cmd = s.cmd := rfl
@[simp] theorem State.answer_status (s : State) (a : Answer) : (s.answer a).status = s.status := rfl
@[simp] theorem State.answer_width (s : State) (a : Answer) : (s.answer a).width = s.width := rfl
@[simp] theorem State.answer_height (s : State) (a : Answer) : (s.answer a).height = s.height := rfl
@[simp] theorem State.answer_fmt (s : State) (a : Answer) : (s.answer a).fmt = s.fmt := rfl
@[simp] theorem State.answer_kside (s : State) (a : Answer) : (s.answer a).kside = s.kside := rfl
@[simp] theorem State.answer_kdiv (s : State) (a : Answer) : (s.answer a).kdiv = s.kdiv := rfl
@[simp] theorem State.answer_kcoef (s : State) (a : Answer) : (s.answer a).kcoef = s.kcoef := rfl
@[simp] theorem State.answer_hist (s : State) (a : Answer) : (s.answer a).hist = s.hist := rfl
@[simp] theorem State.answer_cdf (s : State) (a : Answer) : (s.answer a).cdf = s.cdf := rfl
@[simp] theorem State.answer_lut (s : State) (a : Answer) : (s.answer a).lut = s.lut := rfl
@[simp] theorem State.answer_mem (s : State) (a : Answer) : (s.answer a).mem = s.mem := rfl
@[simp] theorem State.answer_inFlight (s : State) (a : Answer) : (s.answer a).inFlight = s.inFlight := rfl
@[simp] theorem State.answer_windowOpen (s : State) (a : Answer) : (s.answer a).windowOpen = s.windowOpen := rfl
@[simp] theorem State.answer_script (s : State) (a : Answer) : (s.answer a).script = s.script := rfl
@[simp] theorem State.answer_turns (s : State) (a : Answer) : (s.answer a).turns = s.turns := rfl
@[simp] theorem State.answer_answers (s : State) (a : Answer) : (s.answer a).answers = a :: s.answers := rfl
@[simp] theorem State.answer_draws (s : State) (a : Answer) : (s.answer a).draws = s.draws := rfl

/-! ### State.readPix -/

@[simp] theorem State.readPix_pixcap (s : State) (a : Nat) : (s.readPix a).pixcap = s.pixcap := rfl
@[simp] theorem State.readPix_cmd (s : State) (a : Nat) : (s.readPix a).cmd = s.cmd := rfl
@[simp] theorem State.readPix_status (s : State) (a : Nat) : (s.readPix a).status = s.status := rfl
@[simp] theorem State.readPix_width (s : State) (a : Nat) : (s.readPix a).width = s.width := rfl
@[simp] theorem State.readPix_height (s : State) (a : Nat) : (s.readPix a).height = s.height := rfl
@[simp] theorem State.readPix_fmt (s : State) (a : Nat) : (s.readPix a).fmt = s.fmt := rfl
@[simp] theorem State.readPix_kside (s : State) (a : Nat) : (s.readPix a).kside = s.kside := rfl
@[simp] theorem State.readPix_kdiv (s : State) (a : Nat) : (s.readPix a).kdiv = s.kdiv := rfl
@[simp] theorem State.readPix_kcoef (s : State) (a : Nat) : (s.readPix a).kcoef = s.kcoef := rfl
@[simp] theorem State.readPix_hist (s : State) (a : Nat) : (s.readPix a).hist = s.hist := rfl
@[simp] theorem State.readPix_cdf (s : State) (a : Nat) : (s.readPix a).cdf = s.cdf := rfl
@[simp] theorem State.readPix_lut (s : State) (a : Nat) : (s.readPix a).lut = s.lut := rfl
@[simp] theorem State.readPix_mem (s : State) (a : Nat) : (s.readPix a).mem = s.mem := rfl
@[simp] theorem State.readPix_inFlight (s : State) (a : Nat) : (s.readPix a).inFlight = s.inFlight := rfl
@[simp] theorem State.readPix_windowOpen (s : State) (a : Nat) : (s.readPix a).windowOpen = s.windowOpen := rfl
@[simp] theorem State.readPix_script (s : State) (a : Nat) : (s.readPix a).script = s.script := rfl
@[simp] theorem State.readPix_turns (s : State) (a : Nat) : (s.readPix a).turns = s.turns := rfl
@[simp] theorem State.readPix_answers (s : State) (a : Nat) : (s.readPix a).answers = .pix a (s.pix a) :: s.answers := rfl
@[simp] theorem State.readPix_draws (s : State) (a : Nat) : (s.readPix a).draws = s.draws + 1 := rfl

/-! ### State.writePix -/

@[simp] theorem State.writePix_pixcap (s : State) (a : Nat) (b : Byte) : (s.writePix a b).pixcap = s.pixcap := rfl
@[simp] theorem State.writePix_cmd (s : State) (a : Nat) (b : Byte) : (s.writePix a b).cmd = s.cmd := rfl
@[simp] theorem State.writePix_status (s : State) (a : Nat) (b : Byte) : (s.writePix a b).status = s.status := rfl
@[simp] theorem State.writePix_width (s : State) (a : Nat) (b : Byte) : (s.writePix a b).width = s.width := rfl
@[simp] theorem State.writePix_height (s : State) (a : Nat) (b : Byte) : (s.writePix a b).height = s.height := rfl
@[simp] theorem State.writePix_fmt (s : State) (a : Nat) (b : Byte) : (s.writePix a b).fmt = s.fmt := rfl
@[simp] theorem State.writePix_kside (s : State) (a : Nat) (b : Byte) : (s.writePix a b).kside = s.kside := rfl
@[simp] theorem State.writePix_kdiv (s : State) (a : Nat) (b : Byte) : (s.writePix a b).kdiv = s.kdiv := rfl
@[simp] theorem State.writePix_kcoef (s : State) (a : Nat) (b : Byte) : (s.writePix a b).kcoef = s.kcoef := rfl
@[simp] theorem State.writePix_hist (s : State) (a : Nat) (b : Byte) : (s.writePix a b).hist = s.hist := rfl
@[simp] theorem State.writePix_cdf (s : State) (a : Nat) (b : Byte) : (s.writePix a b).cdf = s.cdf := rfl
@[simp] theorem State.writePix_lut (s : State) (a : Nat) (b : Byte) : (s.writePix a b).lut = s.lut := rfl
@[simp] theorem State.writePix_mem (s : State) (a : Nat) (b : Byte) : (s.writePix a b).mem = s.mem.write a b := rfl
@[simp] theorem State.writePix_inFlight (s : State) (a : Nat) (b : Byte) : (s.writePix a b).inFlight = s.inFlight := rfl
@[simp] theorem State.writePix_windowOpen (s : State) (a : Nat) (b : Byte) : (s.writePix a b).windowOpen = s.windowOpen := rfl
@[simp] theorem State.writePix_script (s : State) (a : Nat) (b : Byte) : (s.writePix a b).script = s.script := rfl
@[simp] theorem State.writePix_turns (s : State) (a : Nat) (b : Byte) : (s.writePix a b).turns = s.turns := rfl
@[simp] theorem State.writePix_answers (s : State) (a : Nat) (b : Byte) : (s.writePix a b).answers = s.answers := rfl
@[simp] theorem State.writePix_draws (s : State) (a : Nat) (b : Byte) : (s.writePix a b).draws = s.draws := rfl

/-! ### State.platformReset -/

@[simp] theorem State.platformReset_pixcap (s : State) : (s.platformReset).pixcap = s.pixcap := rfl
@[simp] theorem State.platformReset_cmd (s : State) : (s.platformReset).cmd = 0 := rfl
@[simp] theorem State.platformReset_status (s : State) : (s.platformReset).status = Status.idle := rfl
@[simp] theorem State.platformReset_width (s : State) : (s.platformReset).width = 0 := rfl
@[simp] theorem State.platformReset_height (s : State) : (s.platformReset).height = 0 := rfl
@[simp] theorem State.platformReset_fmt (s : State) : (s.platformReset).fmt = 0 := rfl
@[simp] theorem State.platformReset_kside (s : State) : (s.platformReset).kside = 0 := rfl
@[simp] theorem State.platformReset_kdiv (s : State) : (s.platformReset).kdiv = 0 := rfl
@[simp] theorem State.platformReset_kcoef (s : State) : (s.platformReset).kcoef = Vector.replicate 25 0 := rfl
@[simp] theorem State.platformReset_hist (s : State) : (s.platformReset).hist = Vector.replicate 256 0 := rfl
@[simp] theorem State.platformReset_cdf (s : State) : (s.platformReset).cdf = Vector.replicate 256 0 := rfl
@[simp] theorem State.platformReset_lut (s : State) : (s.platformReset).lut = Vector.replicate 256 0 := rfl
@[simp] theorem State.platformReset_mem (s : State) : (s.platformReset).mem = [] := rfl
@[simp] theorem State.platformReset_inFlight (s : State) : (s.platformReset).inFlight = none := rfl
@[simp] theorem State.platformReset_windowOpen (s : State) : (s.platformReset).windowOpen = false := rfl
@[simp] theorem State.platformReset_script (s : State) : (s.platformReset).script = s.script := rfl
@[simp] theorem State.platformReset_turns (s : State) : (s.platformReset).turns = s.turns := rfl
@[simp] theorem State.platformReset_answers (s : State) : (s.platformReset).answers = s.answers := rfl
@[simp] theorem State.platformReset_draws (s : State) : (s.platformReset).draws = s.draws + 1 := rfl

/-! ### State.withCommandWord -/

@[simp] theorem State.withCommandWord_pixcap (s : State) (w : Word) : (s.withCommandWord w).pixcap = s.pixcap := rfl
@[simp] theorem State.withCommandWord_cmd (s : State) (w : Word) : (s.withCommandWord w).cmd = s.cmd := rfl
@[simp] theorem State.withCommandWord_status (s : State) (w : Word) : (s.withCommandWord w).status = { s.status with busy := false } := rfl
@[simp] theorem State.withCommandWord_width (s : State) (w : Word) : (s.withCommandWord w).width = s.width := rfl
@[simp] theorem State.withCommandWord_height (s : State) (w : Word) : (s.withCommandWord w).height = s.height := rfl
@[simp] theorem State.withCommandWord_fmt (s : State) (w : Word) : (s.withCommandWord w).fmt = s.fmt := rfl
@[simp] theorem State.withCommandWord_kside (s : State) (w : Word) : (s.withCommandWord w).kside = s.kside := rfl
@[simp] theorem State.withCommandWord_kdiv (s : State) (w : Word) : (s.withCommandWord w).kdiv = s.kdiv := rfl
@[simp] theorem State.withCommandWord_kcoef (s : State) (w : Word) : (s.withCommandWord w).kcoef = s.kcoef := rfl
@[simp] theorem State.withCommandWord_hist (s : State) (w : Word) : (s.withCommandWord w).hist = s.hist := rfl
@[simp] theorem State.withCommandWord_cdf (s : State) (w : Word) : (s.withCommandWord w).cdf = s.cdf := rfl
@[simp] theorem State.withCommandWord_lut (s : State) (w : Word) : (s.withCommandWord w).lut = s.lut := rfl
@[simp] theorem State.withCommandWord_mem (s : State) (w : Word) : (s.withCommandWord w).mem = s.mem := rfl
@[simp] theorem State.withCommandWord_inFlight (s : State) (w : Word) : (s.withCommandWord w).inFlight = none := rfl
@[simp] theorem State.withCommandWord_windowOpen (s : State) (w : Word) : (s.withCommandWord w).windowOpen = false := rfl
@[simp] theorem State.withCommandWord_script (s : State) (w : Word) : (s.withCommandWord w).script = .regWrite 0 w :: s.script := rfl
@[simp] theorem State.withCommandWord_turns (s : State) (w : Word) : (s.withCommandWord w).turns = s.turns := rfl
@[simp] theorem State.withCommandWord_answers (s : State) (w : Word) : (s.withCommandWord w).answers = s.answers := rfl
@[simp] theorem State.withCommandWord_draws (s : State) (w : Word) : (s.withCommandWord w).draws = s.draws := rfl

/-! ### State.useTurn -/

@[simp] theorem State.useTurn_pixcap (s : State) : s.useTurn.pixcap = s.pixcap := by
  unfold State.useTurn; split <;> rfl
@[simp] theorem State.useTurn_cmd (s : State) : s.useTurn.cmd = s.cmd := by
  unfold State.useTurn; split <;> rfl
@[simp] theorem State.useTurn_status (s : State) : s.useTurn.status = s.status := by
  unfold State.useTurn; split <;> rfl
@[simp] theorem State.useTurn_width (s : State) : s.useTurn.width = s.width := by
  unfold State.useTurn; split <;> rfl
@[simp] theorem State.useTurn_height (s : State) : s.useTurn.height = s.height := by
  unfold State.useTurn; split <;> rfl
@[simp] theorem State.useTurn_fmt (s : State) : s.useTurn.fmt = s.fmt := by
  unfold State.useTurn; split <;> rfl
@[simp] theorem State.useTurn_kside (s : State) : s.useTurn.kside = s.kside := by
  unfold State.useTurn; split <;> rfl
@[simp] theorem State.useTurn_kdiv (s : State) : s.useTurn.kdiv = s.kdiv := by
  unfold State.useTurn; split <;> rfl
@[simp] theorem State.useTurn_kcoef (s : State) : s.useTurn.kcoef = s.kcoef := by
  unfold State.useTurn; split <;> rfl
@[simp] theorem State.useTurn_hist (s : State) : s.useTurn.hist = s.hist := by
  unfold State.useTurn; split <;> rfl
@[simp] theorem State.useTurn_cdf (s : State) : s.useTurn.cdf = s.cdf := by
  unfold State.useTurn; split <;> rfl
@[simp] theorem State.useTurn_lut (s : State) : s.useTurn.lut = s.lut := by
  unfold State.useTurn; split <;> rfl
@[simp] theorem State.useTurn_mem (s : State) : s.useTurn.mem = s.mem := by
  unfold State.useTurn; split <;> rfl
@[simp] theorem State.useTurn_inFlight (s : State) : s.useTurn.inFlight = s.inFlight := by
  unfold State.useTurn; split <;> rfl
@[simp] theorem State.useTurn_windowOpen (s : State) : s.useTurn.windowOpen = s.windowOpen := by
  unfold State.useTurn; split <;> rfl
@[simp] theorem State.useTurn_script (s : State) : s.useTurn.script = s.script := by
  unfold State.useTurn; split <;> rfl
theorem State.useTurn_turns (s : State) :
    s.useTurn.turns = if s.inFlight.isSome then s.turns.tail else s.turns := by
  unfold State.useTurn; split <;> rfl
@[simp] theorem State.useTurn_answers (s : State) : s.useTurn.answers = s.answers := by
  unfold State.useTurn; split <;> rfl
@[simp] theorem State.useTurn_draws (s : State) : s.useTurn.draws = s.draws := by
  unfold State.useTurn; split <;> rfl

/-! ### State.readReg -/

@[simp] theorem State.readReg_pixcap (s : State) (off : Nat) : (s.readReg off).pixcap = s.pixcap := by
  unfold State.readReg; dsimp only; split <;> rfl
@[simp] theorem State.readReg_cmd (s : State) (off : Nat) : (s.readReg off).cmd = s.cmd := by
  unfold State.readReg; dsimp only; split <;> rfl
@[simp] theorem State.readReg_status (s : State) (off : Nat) : (s.readReg off).status = s.status := by
  unfold State.readReg; dsimp only; split <;> rfl
@[simp] theorem State.readReg_width (s : State) (off : Nat) : (s.readReg off).width = s.width := by
  unfold State.readReg; dsimp only; split <;> rfl
@[simp] theorem State.readReg_height (s : State) (off : Nat) : (s.readReg off).height = s.height := by
  unfold State.readReg; dsimp only; split <;> rfl
@[simp] theorem State.readReg_fmt (s : State) (off : Nat) : (s.readReg off).fmt = s.fmt := by
  unfold State.readReg; dsimp only; split <;> rfl
@[simp] theorem State.readReg_kside (s : State) (off : Nat) : (s.readReg off).kside = s.kside := by
  unfold State.readReg; dsimp only; split <;> rfl
@[simp] theorem State.readReg_kdiv (s : State) (off : Nat) : (s.readReg off).kdiv = s.kdiv := by
  unfold State.readReg; dsimp only; split <;> rfl
@[simp] theorem State.readReg_kcoef (s : State) (off : Nat) : (s.readReg off).kcoef = s.kcoef := by
  unfold State.readReg; dsimp only; split <;> rfl
@[simp] theorem State.readReg_hist (s : State) (off : Nat) : (s.readReg off).hist = s.hist := by
  unfold State.readReg; dsimp only; split <;> rfl
@[simp] theorem State.readReg_cdf (s : State) (off : Nat) : (s.readReg off).cdf = s.cdf := by
  unfold State.readReg; dsimp only; split <;> rfl
@[simp] theorem State.readReg_lut (s : State) (off : Nat) : (s.readReg off).lut = s.lut := by
  unfold State.readReg; dsimp only; split <;> rfl
@[simp] theorem State.readReg_mem (s : State) (off : Nat) : (s.readReg off).mem = s.mem := by
  unfold State.readReg; dsimp only; split <;> rfl
@[simp] theorem State.readReg_inFlight (s : State) (off : Nat) : (s.readReg off).inFlight = s.inFlight := by
  unfold State.readReg; dsimp only; split <;> rfl
theorem State.readReg_windowOpen (s : State) (off : Nat) :
    (s.readReg off).windowOpen = if off = 0x004 then s.windowOpen && s.status.busy else s.windowOpen := by
  unfold State.readReg; split <;> rfl
@[simp] theorem State.readReg_script (s : State) (off : Nat) : (s.readReg off).script = s.script := by
  unfold State.readReg; dsimp only; split <;> rfl
@[simp] theorem State.readReg_turns (s : State) (off : Nat) : (s.readReg off).turns = s.turns := by
  unfold State.readReg; dsimp only; split <;> rfl
@[simp] theorem State.readReg_answers (s : State) (off : Nat) :
    (s.readReg off).answers = .reg off (s.regValue off) :: s.answers := by
  unfold State.readReg; dsimp only; split <;> rfl
@[simp] theorem State.readReg_draws (s : State) (off : Nat) : (s.readReg off).draws = s.draws := by
  unfold State.readReg; dsimp only; split <;> rfl

/-! ### State.writeReg: only configuration registers change -/

@[simp] theorem State.writeReg_pixcap (s : State) (off : Nat) (v : Word) : (s.writeReg off v).pixcap = s.pixcap := by
  unfold State.writeReg; repeat' split
  all_goals rfl
@[simp] theorem State.writeReg_cmd (s : State) (off : Nat) (v : Word) : (s.writeReg off v).cmd = s.cmd := by
  unfold State.writeReg; repeat' split
  all_goals rfl
@[simp] theorem State.writeReg_status (s : State) (off : Nat) (v : Word) : (s.writeReg off v).status = s.status := by
  unfold State.writeReg; repeat' split
  all_goals rfl
@[simp] theorem State.writeReg_hist (s : State) (off : Nat) (v : Word) : (s.writeReg off v).hist = s.hist := by
  unfold State.writeReg; repeat' split
  all_goals rfl
@[simp] theorem State.writeReg_cdf (s : State) (off : Nat) (v : Word) : (s.writeReg off v).cdf = s.cdf := by
  unfold State.writeReg; repeat' split
  all_goals rfl
@[simp] theorem State.writeReg_lut (s : State) (off : Nat) (v : Word) : (s.writeReg off v).lut = s.lut := by
  unfold State.writeReg; repeat' split
  all_goals rfl
@[simp] theorem State.writeReg_mem (s : State) (off : Nat) (v : Word) : (s.writeReg off v).mem = s.mem := by
  unfold State.writeReg; repeat' split
  all_goals rfl
@[simp] theorem State.writeReg_inFlight (s : State) (off : Nat) (v : Word) : (s.writeReg off v).inFlight = s.inFlight := by
  unfold State.writeReg; repeat' split
  all_goals rfl
@[simp] theorem State.writeReg_windowOpen (s : State) (off : Nat) (v : Word) : (s.writeReg off v).windowOpen = s.windowOpen := by
  unfold State.writeReg; repeat' split
  all_goals rfl
@[simp] theorem State.writeReg_script (s : State) (off : Nat) (v : Word) : (s.writeReg off v).script = s.script := by
  unfold State.writeReg; repeat' split
  all_goals rfl
@[simp] theorem State.writeReg_turns (s : State) (off : Nat) (v : Word) : (s.writeReg off v).turns = s.turns := by
  unfold State.writeReg; repeat' split
  all_goals rfl
@[simp] theorem State.writeReg_answers (s : State) (off : Nat) (v : Word) : (s.writeReg off v).answers = s.answers := by
  unfold State.writeReg; repeat' split
  all_goals rfl
@[simp] theorem State.writeReg_draws (s : State) (off : Nat) (v : Word) : (s.writeReg off v).draws = s.draws := by
  unfold State.writeReg; repeat' split
  all_goals rfl

end Sys2Proof.Machine
end

