-- ==== Sys2Proof/Laws/Memory.lean ====
section
/-! SUPPORT. Pixel memory: read after write, stores of several bytes, and the canonical form that every operation keeps. -/

namespace Sys2Proof.Machine

/-- Reading after a write: the byte written at its address, every other address as before. -/
theorem Memory.read_write (m : Memory) (a : Nat) (b : Byte) (a' : Nat) :
    (m.write a b).read a' = if a' = a then some b else m.read a' := by
  induction m with
  | nil => simp [Memory.write, Memory.read]
  | cons c m ih =>
    obtain ⟨k, v⟩ := c
    unfold Memory.write
    split
    · simp [Memory.read]
    · split
      · next h => subst h; by_cases h' : a' = a <;> simp [Memory.read, h']
      · next h1 h2 =>
        by_cases h' : a' = k
        · subst h'; simp [Memory.read, Ne.symm h2]
        · simp [Memory.read, h', ih]

/-- A read at the address just written gives the byte written. -/
theorem Memory.read_write_same (m : Memory) (a : Nat) (b : Byte) : (m.write a b).read a = some b := by
  simp [Memory.read_write]

/-- A write leaves every other address alone. -/
theorem Memory.read_write_other (m : Memory) {a a' : Nat} (b : Byte) (h : a' ≠ a) :
    (m.write a b).read a' = m.read a' := by
  simp [Memory.read_write, h]

@[simp] theorem Memory.writeAll_nil (m : Memory) : m.writeAll [] = m := rfl

theorem Memory.writeAll_cons (m : Memory) (c : Host.Cell) (cs : List Host.Cell) :
    m.writeAll (c :: cs) = (m.write c.1 c.2).writeAll cs := rfl

theorem Memory.writeAll_append (m : Memory) (cs ds : List Host.Cell) :
    m.writeAll (cs ++ ds) = (m.writeAll cs).writeAll ds := by
  simp [Memory.writeAll, List.foldl_append]

/-- Stores leave every address alone that none of their cells names. -/
theorem Memory.read_writeAll_other (cs : List Host.Cell) (m : Memory) (a : Nat) (h : ∀ c ∈ cs, c.1 ≠ a) :
    (m.writeAll cs).read a = m.read a := by
  induction cs generalizing m with
  | nil => rfl
  | cons c cs ih =>
    rw [Memory.writeAll_cons, ih _ fun d hd => h d (List.mem_cons_of_mem _ hd)]
    exact Memory.read_write_other _ _ (Ne.symm (h c List.mem_cons_self))

/-- Stores whose cells agree about the byte at `a` leave that byte there. -/
theorem Memory.read_writeAll_of_agree (cs : List Host.Cell) (m : Memory) (a : Nat) (b : Byte)
    (hmem : (a, b) ∈ cs) (hagree : ∀ c ∈ cs, c.1 = a → c.2 = b) : (m.writeAll cs).read a = some b := by
  induction cs generalizing m with
  | nil => simp at hmem
  | cons c cs ih =>
    rw [Memory.writeAll_cons]
    by_cases hin : (a, b) ∈ cs
    · exact ih _ hin fun d hd => hagree d (List.mem_cons_of_mem _ hd)
    · have hc : c = (a, b) := by simpa [hin, eq_comm] using hmem
      subst hc
      rw [Memory.read_writeAll_other _ _ _ ?_, Memory.read_write_same]
      intro d hd heq
      have hb := hagree d (List.mem_cons_of_mem _ hd) heq
      exact hin (by rw [← heq, ← hb]; exact hd)

/-- What a byte holds after stores: as before, or the byte of some cell. -/
theorem Memory.read_writeAll_cases (cs : List Host.Cell) (m : Memory) (a : Nat) :
    (m.writeAll cs).read a = m.read a ∨ ∃ b, (a, b) ∈ cs ∧ (m.writeAll cs).read a = some b := by
  induction cs generalizing m with
  | nil => exact .inl rfl
  | cons c cs ih =>
    rw [Memory.writeAll_cons]
    rcases ih (m.write c.1 c.2) with h | ⟨b, hb, h⟩
    · by_cases hca : a = c.1
      · right
        refine ⟨c.2, by simp [hca], ?_⟩
        rw [h, hca, Memory.read_write_same]
      · left; rw [h, Memory.read_write_other _ _ hca]
    · exact .inr ⟨b, List.mem_cons_of_mem _ hb, h⟩

theorem Memory.risingFrom_mono {m : Memory} {lo lo' : Nat} (h : lo' ≤ lo)
    (hm : Memory.risingFrom lo m = true) : Memory.risingFrom lo' m = true := by
  cases m with
  | nil => rfl
  | cons c m =>
    obtain ⟨k, v⟩ := c
    simp only [Memory.risingFrom, Bool.and_eq_true, decide_eq_true_eq] at hm ⊢
    exact ⟨by omega, hm.2⟩

theorem Memory.risingFrom_write {m : Memory} {lo a : Nat} (b : Byte) (ha : lo ≤ a)
    (hm : Memory.risingFrom lo m = true) : Memory.risingFrom lo (m.write a b) = true := by
  induction m generalizing lo with
  | nil => simp [Memory.write, Memory.risingFrom, ha]
  | cons c m ih =>
    obtain ⟨k, v⟩ := c
    simp only [Memory.risingFrom, Bool.and_eq_true, decide_eq_true_eq] at hm
    unfold Memory.write
    split
    · simp only [Memory.risingFrom, Bool.and_eq_true, decide_eq_true_eq]; exact ⟨ha, by omega, hm.2⟩
    · split
      · simp only [Memory.risingFrom, Bool.and_eq_true, decide_eq_true_eq]; exact ⟨hm.1, hm.2⟩
      · simp only [Memory.risingFrom, Bool.and_eq_true, decide_eq_true_eq]
        exact ⟨hm.1, ih (by omega) hm.2⟩

/-- A write keeps the canonical form. -/
theorem Memory.wf_write {m : Memory} (a : Nat) (b : Byte) (hm : m.wf = true) : (m.write a b).wf = true :=
  Memory.risingFrom_write b (Nat.zero_le a) hm

/-- Stores keep the canonical form. -/
theorem Memory.wf_writeAll (cs : List Host.Cell) {m : Memory} (hm : m.wf = true) : (m.writeAll cs).wf = true := by
  induction cs generalizing m with
  | nil => exact hm
  | cons c cs ih => exact ih (Memory.wf_write c.1 c.2 hm)

theorem Memory.below_write {cap a : Nat} {m : Memory} (b : Byte) (ha : a < cap) (hm : Memory.below cap m = true) :
    Memory.below cap (m.write a b) = true := by
  induction m with
  | nil => simpa [Memory.write, Memory.below] using ha
  | cons c m ih =>
    obtain ⟨k, v⟩ := c
    simp only [Memory.below, List.all_cons, Bool.and_eq_true, decide_eq_true_eq] at hm ih ⊢
    unfold Memory.write
    split
    · simpa [ha] using hm
    · split
      · simpa using hm
      · simpa using ⟨hm.1, by simpa using ih hm.2⟩

/-- Stores below a bound keep every listed address below it. -/
theorem Memory.below_writeAll {cap : Nat} (cs : List Host.Cell) {m : Memory} (hcs : ∀ c ∈ cs, c.1 < cap)
    (hm : Memory.below cap m = true) : Memory.below cap (m.writeAll cs) = true := by
  induction cs generalizing m with
  | nil => exact hm
  | cons c cs ih =>
    exact ih (fun d hd => hcs d (List.mem_cons_of_mem _ hd)) (Memory.below_write c.2 (hcs c List.mem_cons_self) hm)

/-- The memory of the machine right after reset has the canonical form. -/
theorem State.reset_mem_wf : State.reset.mem.wf = true := rfl

end Sys2Proof.Machine
end

