-- ==== Sys2Proof/Laws/Image.lean ====
section
/-! SUPPORT. The image in the active region: its pixels, their addresses, and what the shared operations on images leave in
memory. -/

namespace Sys2Proof.Machine

theorem mem_coords {w h x y : Nat} : (x, y) ∈ coords w h ↔ x < w ∧ y < h := by
  simp [coords, and_comm]

theorem State.mem_pixels {s : State} {x y : Nat} : (x, y) ∈ s.pixels ↔ x < s.imgW ∧ y < s.imgH := mem_coords

theorem State.format_eq_gray8 {s : State} : s.format = .gray8 ↔ s.fmt = 0 := by
  unfold State.format; split <;> simp_all

theorem State.format_eq_rgb24 {s : State} : s.format = .rgb24 ↔ s.fmt ≠ 0 := by
  unfold State.format; split <;> simp_all

theorem State.bpp_gray8 {s : State} (h : s.format = .gray8) : s.bpp = 1 := by
  simp [State.bpp, h, Format.bpp]

theorem State.bpp_rgb24 {s : State} (h : s.format = .rgb24) : s.bpp = 3 := by
  simp [State.bpp, h, Format.bpp]

theorem State.bpp_pos (s : State) : 0 < s.bpp := by
  unfold State.bpp; cases s.format <;> decide

/-- The address of a byte of the image lies in the active region. -/
theorem State.addr_lt {s : State} {x y c : Nat} (hx : x < s.imgW) (hy : y < s.imgH) (hc : c < s.bpp) :
    s.addr x y c < s.nBytes := by
  have h1 : (y + 1) * s.imgW ≤ s.imgW * s.imgH := by rw [Nat.mul_comm]; exact Nat.mul_le_mul_left _ hy
  have h2 : y * s.imgW + x + 1 ≤ s.nPix := by unfold State.nPix; rw [Nat.add_mul] at h1; omega
  calc s.addr x y c < (y * s.imgW + x) * s.bpp + s.bpp := by unfold State.addr; omega
    _ = (y * s.imgW + x + 1) * s.bpp := by ring
    _ ≤ s.nBytes := Nat.mul_le_mul_right _ h2

/-- Different bytes of the image have different addresses. -/
theorem State.addr_inj {s : State} {x y c x' y' c' : Nat} (hx : x < s.imgW) (hc : c < s.bpp) (hx' : x' < s.imgW)
    (hc' : c' < s.bpp) (h : s.addr x y c = s.addr x' y' c') : x = x' ∧ y = y' ∧ c = c' := by
  have hcc : c = c' := by
    have h1 := congrArg (· % s.bpp) h
    simpa [State.addr, Nat.mul_add_mod', Nat.mod_eq_of_lt hc, Nat.mod_eq_of_lt hc'] using h1
  subst hcc
  have h2 : y * s.imgW + x = y' * s.imgW + x' := by
    have h3 : (y * s.imgW + x) * s.bpp = (y' * s.imgW + x') * s.bpp := by unfold State.addr at h; omega
    exact Nat.eq_of_mul_eq_mul_right s.bpp_pos h3
  have hxx : x = x' := by
    have h1 := congrArg (· % s.imgW) h2
    simpa [Nat.mul_add_mod', Nat.mod_eq_of_lt hx, Nat.mod_eq_of_lt hx'] using h1
  subst hxx
  have h3 : y * s.imgW = y' * s.imgW := by omega
  exact ⟨rfl, Nat.eq_of_mul_eq_mul_right (by omega) h3, rfl⟩

/-- Every byte of the active region belongs to some pixel. -/
theorem State.exists_addr {s : State} {a : Nat} (h : a < s.nBytes) :
    ∃ x y c, x < s.imgW ∧ y < s.imgH ∧ c < s.bpp ∧ s.addr x y c = a := by
  have hb := s.bpp_pos
  have hp : a / s.bpp < s.imgW * s.imgH := Nat.div_lt_of_lt_mul (by rw [Nat.mul_comm]; exact h)
  have hw : 0 < s.imgW := Nat.pos_of_ne_zero fun h0 => by simp [h0] at hp
  refine ⟨a / s.bpp % s.imgW, a / s.bpp / s.imgW, a % s.bpp, Nat.mod_lt _ hw, Nat.div_lt_of_lt_mul hp,
    Nat.mod_lt _ hb, ?_⟩
  unfold State.addr
  rw [Nat.mul_comm (a / s.bpp / s.imgW), Nat.div_add_mod, Nat.mul_comm, Nat.div_add_mod]

/-- A byte that has been written reads as it was written. -/
theorem State.pix_of_read {s : State} {a : Nat} {b : Byte} (h : s.mem.read a = some b) : s.pix a = b := by
  simp [State.pix, h]

/-- What `mapBytes` leaves in memory: `f` of every byte of the active region, nothing else changed. -/
theorem State.read_mapBytes (f : Byte → Byte) (s : State) (a : Nat) :
    (s.mapBytes f).mem.read a = if a < s.nBytes then some (f (s.pix a)) else s.mem.read a := by
  unfold State.mapBytes
  rw [State.store_mem]
  split
  · next h =>
    refine Memory.read_writeAll_of_agree _ _ _ _ (List.mem_map.2 ⟨a, List.mem_range.2 h, rfl⟩) ?_
    intro c hc hca
    obtain ⟨a', -, rfl⟩ := List.mem_map.1 hc
    simp only at hca ⊢
    rw [hca]
  · next h =>
    refine Memory.read_writeAll_other _ _ _ ?_
    intro c hc hca
    obtain ⟨a', ha', rfl⟩ := List.mem_map.1 hc
    exact h (hca ▸ List.mem_range.1 ha')

/-- Channel `c` of a pixel's three bytes. -/
def Rgb.channel (p : Rgb) : Nat → Byte
  | 0 => p.r
  | 1 => p.g
  | _ => p.b

theorem State.mem_rgbCells {s : State} {x y : Nat} {p : Rgb} {c : Host.Cell} :
    c ∈ s.rgbCells x y p ↔ ∃ k < 3, c = (s.addr x y k, p.channel k) := by
  simp only [State.rgbCells, List.mem_cons, List.not_mem_nil, or_false]
  constructor
  · rintro (h | h | h)
    · exact ⟨0, by decide, h⟩
    · exact ⟨1, by decide, h⟩
    · exact ⟨2, by decide, h⟩
  · rintro ⟨k, hk, h⟩
    match k, hk with
    | 0, _ => exact .inl h
    | 1, _ => exact .inr (.inl h)
    | 2, _ => exact .inr (.inr h)

/-- The bytes of a store that lists, for some pixels of the image and every channel, one cell with the value `g x y c`. -/
theorem State.read_store_pixels {s : State} {cells : List Host.Cell} {P : Nat → Nat → Prop} {g : Nat → Nat → Nat → Byte}
    (hcells : ∀ d, d ∈ cells ↔
      ∃ x y c, x < s.imgW ∧ y < s.imgH ∧ P x y ∧ c < s.bpp ∧ d = (s.addr x y c, g x y c))
    {x y c : Nat} (hx : x < s.imgW) (hc : c < s.bpp) (hy : y < s.imgH) :
    (P x y → (s.mem.writeAll cells).read (s.addr x y c) = some (g x y c)) ∧
    (¬ P x y → (s.mem.writeAll cells).read (s.addr x y c) = s.mem.read (s.addr x y c)) := by
  constructor
  · intro hP
    refine Memory.read_writeAll_of_agree _ _ _ _ ((hcells _).2 ⟨x, y, c, hx, hy, hP, hc, rfl⟩) ?_
    intro d hd hda
    obtain ⟨x', y', c', hx', hy', -, hc', rfl⟩ := (hcells _).1 hd
    obtain ⟨rfl, rfl, rfl⟩ := State.addr_inj hx' hc' hx hc hda
    rfl
  · intro hP
    refine Memory.read_writeAll_other _ _ _ ?_
    intro d hd hda
    obtain ⟨x', y', c', hx', hy', hP', hc', rfl⟩ := (hcells _).1 hd
    obtain ⟨rfl, rfl, rfl⟩ := State.addr_inj hx' hc' hx hc hda
    exact hP hP'

/-- A store of cells of the active region leaves every byte outside it alone. -/
theorem State.read_store_outside {s : State} {cells : List Host.Cell} {a : Nat} (ha : s.nBytes ≤ a)
    (hcells : ∀ d ∈ cells, d.1 < s.nBytes) : (s.mem.writeAll cells).read a = s.mem.read a :=
  Memory.read_writeAll_other _ _ _ fun d hd hda => absurd (hda ▸ hcells d hd) (Nat.not_lt.2 ha)

/-- The cells of `mapPixels` on a colour image. -/
theorem State.mem_mapPixels_cells {s : State} (hf : s.format = .rgb24) (f : Nat → Nat → Rgb) (d : Host.Cell) :
    (d ∈ s.pixels.flatMap fun p => s.rgbCells p.1 p.2 (f p.1 p.2)) ↔
      ∃ x y c, x < s.imgW ∧ y < s.imgH ∧ True ∧ c < s.bpp ∧ d = (s.addr x y c, (f x y).channel c) := by
  rw [State.bpp_rgb24 hf]
  constructor
  · intro h
    obtain ⟨p, hp, hd⟩ := List.mem_flatMap.1 h
    obtain ⟨k, hk, rfl⟩ := State.mem_rgbCells.1 hd
    obtain ⟨h1, h2⟩ := State.mem_pixels.1 hp
    exact ⟨_, _, k, h1, h2, trivial, hk, rfl⟩
  · rintro ⟨x, y, c, hx, hy, -, hc, rfl⟩
    exact List.mem_flatMap.2 ⟨(x, y), State.mem_pixels.2 ⟨hx, hy⟩, State.mem_rgbCells.2 ⟨c, hc, rfl⟩⟩

/-- What `mapPixels` leaves in the memory of a colour image. -/
theorem State.read_mapPixels {s : State} (hf : s.format = .rgb24) (f : Rgb → Rgb) {x y c : Nat} (hx : x < s.imgW)
    (hy : y < s.imgH) (hc : c < 3) :
    (s.mapPixels f).mem.read (s.addr x y c) = some ((f (s.rgb x y)).channel c) :=
  (State.read_store_pixels (P := fun _ _ => True) (g := fun x y c => (f (s.rgb x y)).channel c)
    (State.mem_mapPixels_cells hf fun x y => f (s.rgb x y)) hx (by rwa [State.bpp_rgb24 hf]) hy).1 trivial

/-- `mapPixels` on a colour image leaves every byte outside the active region alone. -/
theorem State.read_mapPixels_outside {s : State} (hf : s.format = .rgb24) (f : Rgb → Rgb) {a : Nat}
    (ha : s.nBytes ≤ a) : (s.mapPixels f).mem.read a = s.mem.read a := by
  refine State.read_store_outside ha ?_
  intro d hd
  obtain ⟨x, y, c, hx, hy, -, hc, rfl⟩ := (State.mem_mapPixels_cells hf (fun x y => f (s.rgb x y)) d).1 hd
  exact State.addr_lt hx hy hc

theorem insideBorder_iff {b n i : Nat} : insideBorder b n i = true ↔ b ≤ i ∧ i + b < n := by
  simp [insideBorder]

/-- The write region of a convolution. -/
def State.inWriteRegion (s : State) (k : Kernel) (x y : Nat) : Prop :=
  s.border k ≤ x ∧ x + s.border k < s.imgW ∧ s.border k ≤ y ∧ y + s.border k < s.imgH

theorem State.mem_writeRegion {s : State} {k : Kernel} {x y : Nat} :
    (x, y) ∈ s.writeRegion k ↔ s.inWriteRegion k x y := by
  simp only [State.writeRegion, List.mem_filter, State.mem_pixels, Bool.and_eq_true, insideBorder_iff,
    State.inWriteRegion]
  constructor
  · rintro ⟨-, h1, h2⟩; exact ⟨h1.1, h1.2, h2.1, h2.2⟩
  · rintro ⟨h1, h2, h3, h4⟩; exact ⟨⟨by omega, by omega⟩, ⟨h1, h2⟩, h3, h4⟩

/-- The cells of the scratch buffer. -/
theorem State.mem_convNew {s : State} {k : Kernel} (d : Host.Cell) :
    d ∈ s.convNew k ↔ ∃ x y c, x < s.imgW ∧ y < s.imgH ∧ s.inWriteRegion k x y ∧ c < s.bpp ∧
      d = (s.addr x y c, s.convOut k x y c) := by
  unfold State.convNew
  constructor
  · intro h
    obtain ⟨p, hp, hd⟩ := List.mem_flatMap.1 h
    obtain ⟨c, hc, rfl⟩ := List.mem_map.1 hd
    have h1 := State.mem_writeRegion.1 hp
    have h2 := h1
    unfold State.inWriteRegion at h2
    exact ⟨_, _, c, by omega, by omega, h1, List.mem_range.1 hc, rfl⟩
  · rintro ⟨x, y, c, -, -, h, hc, rfl⟩
    exact List.mem_flatMap.2
      ⟨(x, y), State.mem_writeRegion.2 h, List.mem_map.2 ⟨c, List.mem_range.2 hc, rfl⟩⟩

/-- What a convolution leaves in memory: the new values in the write region, every other byte of the image as it was. -/
theorem State.read_convolve {s : State} {k : Kernel} {x y c : Nat} (hx : x < s.imgW) (hy : y < s.imgH)
    (hc : c < s.bpp) :
    (s.inWriteRegion k x y → (s.convolve k).mem.read (s.addr x y c) = some (s.convOut k x y c)) ∧
    (¬ s.inWriteRegion k x y → (s.convolve k).mem.read (s.addr x y c) = s.mem.read (s.addr x y c)) :=
  State.read_store_pixels (g := s.convOut k) State.mem_convNew hx hc hy

/-- A convolution leaves every byte outside the active region alone. -/
theorem State.read_convolve_outside {s : State} {k : Kernel} {a : Nat} (ha : s.nBytes ≤ a) :
    (s.convolve k).mem.read a = s.mem.read a := by
  refine State.read_store_outside ha ?_
  intro d hd
  obtain ⟨x, y, c, hx, hy, -, hc, rfl⟩ := (State.mem_convNew d).1 hd
  exact State.addr_lt hx hy hc

end Sys2Proof.Machine
end

