-- ==== Sys2Proof/Laws/Tables.lean ====
section
/-! SUPPORT. The tables of the equalizer: entries of the registers, running sums, the range of an intensity. -/

namespace Sys2Proof.Machine

theorem wordTable_getElem (l : List Nat) (i : Nat) (h : i < 256) :
    (wordTable l)[i] = BitVec.ofNat 32 (l.getD i 0) := by
  unfold wordTable; simp only [Vector.getElem_ofFn]

theorem byteTable_getElem (f : Nat → Byte) (i : Nat) (h : i < 256) : (byteTable f)[i] = f i := by
  unfold byteTable; simp only [Vector.getElem_ofFn]

theorem histogram_length (is : List Nat) : (histogram is).length = 256 := by simp [histogram]

theorem histogram_getD (is : List Nat) {i : Nat} (h : i < 256) : (histogram is).getD i 0 = is.count i := by
  simp [histogram, List.getD, h]

theorem cumulate_length (acc : Nat) (l : List Nat) : (cumulate acc l).length = l.length := by
  induction l generalizing acc with
  | nil => rfl
  | cons h t ih => simp [cumulate, ih]

/-- An entry of the running sums is the sum of the entries up to it. -/
theorem cumulate_getD (acc : Nat) (l : List Nat) {i : Nat} (h : i < l.length) :
    (cumulate acc l).getD i 0 = acc + (l.take (i + 1)).sum := by
  induction l generalizing acc i with
  | nil => simp at h
  | cons a t ih =>
    cases i with
    | zero => simp [cumulate]
    | succ i =>
      have := ih (acc + a) (i := i) (by simpa using h)
      simp only [cumulate, List.getD_cons_succ, this, List.take_succ_cons, List.sum_cons]
      omega

/-- Each running sum is the one before it plus the entry (42_equalize.md R171). -/
theorem cumulate_succ (l : List Nat) {i : Nat} (h : i + 1 < l.length) :
    (cumulate 0 l).getD (i + 1) 0 = (cumulate 0 l).getD i 0 + l.getD (i + 1) 0 := by
  rw [cumulate_getD 0 l h, cumulate_getD 0 l (by omega), List.take_add_one, List.sum_append]
  simp [h, List.getD]

theorem State.newCdf_length (s : State) : s.newCdf.length = 256 := by
  simp [State.newCdf, cumulate_length, State.newHist, histogram_length]

theorem State.newCdf_getD (s : State) {i : Nat} (h : i < 256) :
    s.newCdf.getD i 0 = (s.newHist.take (i + 1)).sum := by
  have hl : s.newHist.length = 256 := histogram_length _
  rw [State.newCdf, cumulate_getD 0 _ (by omega), Nat.zero_add]

/-- The cumulative distribution never decreases. -/
theorem State.newCdf_mono (s : State) {i j : Nat} (hij : i ≤ j) (hj : j < 256) :
    s.newCdf.getD i 0 ≤ s.newCdf.getD j 0 := by
  have hl : s.newHist.length = 256 := histogram_length _
  induction j, hij using Nat.le_induction with
  | base => exact Nat.le_refl _
  | succ j hij ih =>
    refine (ih (by omega)).trans ?_
    rw [State.newCdf, cumulate_succ _ (by omega)]
    exact Nat.le_add_right _ _

theorem byteVal_range (b : Byte) : 0 ≤ byteVal b ∧ byteVal b ≤ 255 := by
  unfold byteVal; have := b.isLt; omega

/-- The rounded luminance lies in 0..255 (42_equalize.md R173). -/
theorem roundedLuma_lt (p : Rgb) : roundedLuma p < 256 := by
  have h1 := byteVal_range p.r
  have h2 := byteVal_range p.g
  have h3 := byteVal_range p.b
  simp only [roundedLuma, forward]
  omega

/-- An intensity lies in 0..255 (42_equalize.md R170). -/
theorem State.intensity_lt (s : State) (x y : Nat) : s.intensity x y < 256 := by
  unfold State.intensity
  split
  · exact (s.pix _).isLt
  · exact roundedLuma_lt _

theorem coords_length (w h : Nat) : (coords w h).length = w * h := by
  simp [coords, List.length_flatMap, Nat.mul_comm]

theorem State.intensities_length (s : State) : s.intensities.length = s.nPix := by
  simp [State.intensities, State.pixels, coords_length, State.nPix]

theorem sum_indicator {a n : Nat} (h : a < n) : ((List.range n).map fun i => if a = i then 1 else 0).sum = 1 := by
  induction n with
  | zero => omega
  | succ n ih =>
    rw [List.range_succ, List.map_append, List.sum_append]
    by_cases hn : a = n
    · subst hn
      have hz : ((List.range a).map fun i => if a = i then 1 else 0).sum = 0 := by
        refine List.sum_eq_zero ?_
        intro x hx
        obtain ⟨i, hi, rfl⟩ := List.mem_map.1 hx
        have := List.mem_range.1 hi
        simp; omega
      simp [hz]
    · simp [ih (by omega), hn]

/-- The counts of all values of a list add up to its length. -/
theorem sum_counts (n : Nat) (is : List Nat) (h : ∀ i ∈ is, i < n) :
    ((List.range n).map fun i => is.count i).sum = is.length := by
  induction is with
  | nil => simp
  | cons a t ih =>
    have ht := ih fun i hi => h i (List.mem_cons_of_mem _ hi)
    simp only [List.count_cons, beq_iff_eq, List.length_cons]
    rw [List.sum_map_add, ht, sum_indicator (h a List.mem_cons_self)]

/-- `N = CDF[255]` is the number of pixels (42_equalize.md R171). -/
theorem State.cdfTotal_eq (s : State) : s.cdfTotal = s.nPix := by
  have hl : s.newHist.length = 256 := histogram_length _
  rw [State.cdfTotal, State.newCdf_getD s (by decide), List.take_of_length_le (by omega), State.newHist, histogram,
    sum_counts 256 _ ?_, State.intensities_length]
  intro i hi
  obtain ⟨p, -, rfl⟩ := List.mem_map.1 hi
  exact State.intensity_lt _ _ _

/-- The new value of channel `c` of a pixel under a command that is not degenerate (42_equalize.md R176, R177). -/
def State.equalizedByte (s : State) (x y c : Nat) : Byte :=
  match s.format with
  | .gray8 => s.newLut (s.intensity x y)
  | .rgb24 =>
    (inverse (s.newLut (s.intensity x y)) (forward (s.rgb x y)).u5 (forward (s.rgb x y)).v5).channel c

/-- The cells of the mapped image. -/
theorem State.mem_equalize_cells {s : State} (d : Host.Cell) :
    (d ∈ s.pixels.flatMap fun p => s.equalizedCells p.1 p.2) ↔
      ∃ x y c, x < s.imgW ∧ y < s.imgH ∧ True ∧ c < s.bpp ∧ d = (s.addr x y c, s.equalizedByte x y c) := by
  cases hf : s.format with
  | rgb24 =>
    simp only [State.equalizedCells, State.equalizedByte, hf]
    exact State.mem_mapPixels_cells hf
      (fun x y => inverse (s.newLut (s.intensity x y)) (forward (s.rgb x y)).u5 (forward (s.rgb x y)).v5) d
  | gray8 =>
    simp only [State.equalizedCells, State.equalizedByte, hf, State.bpp_gray8 hf]
    constructor
    · intro h
      obtain ⟨p, hp, hd⟩ := List.mem_flatMap.1 h
      obtain ⟨h1, h2⟩ := State.mem_pixels.1 hp
      exact ⟨_, _, 0, h1, h2, trivial, Nat.one_pos, List.mem_singleton.1 hd⟩
    · rintro ⟨x, y, c, hx, hy, -, hc, rfl⟩
      obtain rfl : c = 0 := by omega
      exact List.mem_flatMap.2 ⟨(x, y), State.mem_pixels.2 ⟨hx, hy⟩, List.mem_singleton.2 rfl⟩

theorem State.equalize_mem {s : State} (h : s.degenerate = false) :
    s.equalize.mem = s.mem.writeAll (s.pixels.flatMap fun p => s.equalizedCells p.1 p.2) := by
  simp [State.equalize, h]

/-- What a command that is not degenerate leaves in memory. -/
theorem State.read_equalize {s : State} (h : s.degenerate = false) {x y c : Nat} (hx : x < s.imgW) (hy : y < s.imgH)
    (hc : c < s.bpp) : s.equalize.mem.read (s.addr x y c) = some (s.equalizedByte x y c) := by
  rw [State.equalize_mem h]
  exact (State.read_store_pixels (P := fun _ _ => True) State.mem_equalize_cells hx hc hy).1 trivial

/-- `EQUALIZE` leaves every byte outside the active region alone. -/
theorem State.read_equalize_outside {s : State} {a : Nat} (ha : s.nBytes ≤ a) :
    s.equalize.mem.read a = s.mem.read a := by
  cases h : s.degenerate with
  | true => simp [State.equalize, h]
  | false =>
    rw [State.equalize_mem h]
    refine State.read_store_outside ha ?_
    intro d hd
    obtain ⟨x, y, c, hx, hy, -, hc, rfl⟩ := (State.mem_equalize_cells d).1 hd
    exact State.addr_lt hx hy hc

/-- A degenerate `EQUALIZE` writes `HIST` and `CDF` only (42_equalize.md R175). -/
theorem State.equalize_degenerate {s : State} (h : s.degenerate = true) :
    s.equalize = s.setHistCdf s.newHist s.newCdf := by
  simp [State.equalize, h]

@[simp] theorem State.equalize_hist (s : State) : s.equalize.hist = wordTable s.newHist := by
  unfold State.equalize; split <;> simp

@[simp] theorem State.equalize_cdf (s : State) : s.equalize.cdf = wordTable s.newCdf := by
  unfold State.equalize; split <;> simp

theorem State.equalize_lut (s : State) :
    s.equalize.lut = if s.degenerate then s.lut else byteTable s.newLut := by
  unfold State.equalize; split <;> simp_all

end Sys2Proof.Machine
end

