-- ==== Sys2Proof/Laws/Ops.lean ====
section
/-! SUPPORT. What a command can do: its effect as one function, the two phases of its life, and the fields no effect
writes. -/

namespace Sys2Proof.Machine

/-- The effect of a command's completion on pixel memory and tables: the second argument that its meaning hands to `command`. -/
def effectOf : Instr → State → State
  | .neg => State.mapBytes negByte
  | .gray => State.mapPixels grayPixel
  | .bright imm => State.mapBytes (brightByte imm)
  | .thresh imm => State.mapBytes (threshByte imm)
  | .convBox => State.convolve boxKernel
  | .convGauss => State.convolve gaussKernel
  | .convSharpen => State.convolve sharpenKernel
  | .convOutline => State.convolve outlineKernel
  | .convEmboss => State.convolve embossKernel
  | .convCustom => State.convolveCustom
  | .equalize => State.equalize

/-- Every meaning is the life of its command around its effect. -/
theorem exec_eq_command (i : Instr) (s : State) : exec i s = command i (effectOf i) s := by
  cases i <;> rfl

/-- A command with nothing in flight is issued: rejected with the code of the first check that fails, or accepted. -/
theorem exec_issue {i : Instr} {s : State} (h : s.inFlight = none) :
    exec i s = .next (match s.check i with | some k => s.reject k | none => s.accept i) := by
  rw [exec_eq_command, command, h]; dsimp only; split <;> simp_all

/-- A command in flight completes in one step. -/
theorem exec_complete {i j : Instr} {s : State} (h : s.inFlight = some j) :
    exec i s = .next (effectOf i s).complete := by
  rw [exec_eq_command, command, h]

/-- A command never ends in a fault or a refusal. -/
theorem exec_next (i : Instr) (s : State) : ∃ t, exec i s = .next t := by
  cases h : s.inFlight with
  | none => exact ⟨_, exec_issue h⟩
  | some j => exact ⟨_, exec_complete h⟩

/-! ### The fields that no effect writes -/

@[simp] theorem effectOf_pixcap (i : Instr) (s : State) : (effectOf i s).pixcap = s.pixcap := by
  cases i <;> simp only [effectOf, State.mapBytes, State.mapPixels, State.convolve, State.convolveCustom,
    State.equalize] <;> (try split) <;> simp

@[simp] theorem effectOf_cmd (i : Instr) (s : State) : (effectOf i s).cmd = s.cmd := by
  cases i <;> simp only [effectOf, State.mapBytes, State.mapPixels, State.convolve, State.convolveCustom,
    State.equalize] <;> (try split) <;> simp

@[simp] theorem effectOf_status (i : Instr) (s : State) : (effectOf i s).status = s.status := by
  cases i <;> simp only [effectOf, State.mapBytes, State.mapPixels, State.convolve, State.convolveCustom,
    State.equalize] <;> (try split) <;> simp

@[simp] theorem effectOf_width (i : Instr) (s : State) : (effectOf i s).width = s.width := by
  cases i <;> simp only [effectOf, State.mapBytes, State.mapPixels, State.convolve, State.convolveCustom,
    State.equalize] <;> (try split) <;> simp

@[simp] theorem effectOf_height (i : Instr) (s : State) : (effectOf i s).height = s.height := by
  cases i <;> simp only [effectOf, State.mapBytes, State.mapPixels, State.convolve, State.convolveCustom,
    State.equalize] <;> (try split) <;> simp

@[simp] theorem effectOf_fmt (i : Instr) (s : State) : (effectOf i s).fmt = s.fmt := by
  cases i <;> simp only [effectOf, State.mapBytes, State.mapPixels, State.convolve, State.convolveCustom,
    State.equalize] <;> (try split) <;> simp

@[simp] theorem effectOf_kside (i : Instr) (s : State) : (effectOf i s).kside = s.kside := by
  cases i <;> simp only [effectOf, State.mapBytes, State.mapPixels, State.convolve, State.convolveCustom,
    State.equalize] <;> (try split) <;> simp

@[simp] theorem effectOf_kdiv (i : Instr) (s : State) : (effectOf i s).kdiv = s.kdiv := by
  cases i <;> simp only [effectOf, State.mapBytes, State.mapPixels, State.convolve, State.convolveCustom,
    State.equalize] <;> (try split) <;> simp

@[simp] theorem effectOf_kcoef (i : Instr) (s : State) : (effectOf i s).kcoef = s.kcoef := by
  cases i <;> simp only [effectOf, State.mapBytes, State.mapPixels, State.convolve, State.convolveCustom,
    State.equalize] <;> (try split) <;> simp

@[simp] theorem effectOf_inFlight (i : Instr) (s : State) : (effectOf i s).inFlight = s.inFlight := by
  cases i <;> simp only [effectOf, State.mapBytes, State.mapPixels, State.convolve, State.convolveCustom,
    State.equalize] <;> (try split) <;> simp

@[simp] theorem effectOf_windowOpen (i : Instr) (s : State) : (effectOf i s).windowOpen = s.windowOpen := by
  cases i <;> simp only [effectOf, State.mapBytes, State.mapPixels, State.convolve, State.convolveCustom,
    State.equalize] <;> (try split) <;> simp

@[simp] theorem effectOf_script (i : Instr) (s : State) : (effectOf i s).script = s.script := by
  cases i <;> simp only [effectOf, State.mapBytes, State.mapPixels, State.convolve, State.convolveCustom,
    State.equalize] <;> (try split) <;> simp

@[simp] theorem effectOf_turns (i : Instr) (s : State) : (effectOf i s).turns = s.turns := by
  cases i <;> simp only [effectOf, State.mapBytes, State.mapPixels, State.convolve, State.convolveCustom,
    State.equalize] <;> (try split) <;> simp

@[simp] theorem effectOf_answers (i : Instr) (s : State) : (effectOf i s).answers = s.answers := by
  cases i <;> simp only [effectOf, State.mapBytes, State.mapPixels, State.convolve, State.convolveCustom,
    State.equalize] <;> (try split) <;> simp

@[simp] theorem effectOf_draws (i : Instr) (s : State) : (effectOf i s).draws = s.draws := by
  cases i <;> simp only [effectOf, State.mapBytes, State.mapPixels, State.convolve, State.convolveCustom,
    State.equalize] <;> (try split) <;> simp

/-- Only `EQUALIZE` writes `HIST` (10_state.md R42). -/
theorem effectOf_hist (i : Instr) (s : State) (h : i ≠ .equalize) : (effectOf i s).hist = s.hist := by
  cases i <;> simp only [effectOf, State.mapBytes, State.mapPixels, State.convolve, State.convolveCustom,
    ne_eq, not_true_eq_false, reduceCtorEq, not_false_eq_true] at h ⊢ <;> (try split) <;> simp

/-- Only `EQUALIZE` writes `CDF` (10_state.md R42). -/
theorem effectOf_cdf (i : Instr) (s : State) (h : i ≠ .equalize) : (effectOf i s).cdf = s.cdf := by
  cases i <;> simp only [effectOf, State.mapBytes, State.mapPixels, State.convolve, State.convolveCustom,
    ne_eq, not_true_eq_false, reduceCtorEq, not_false_eq_true] at h ⊢ <;> (try split) <;> simp

/-- Only `EQUALIZE` writes `LUT` (10_state.md R42). -/
theorem effectOf_lut (i : Instr) (s : State) (h : i ≠ .equalize) : (effectOf i s).lut = s.lut := by
  cases i <;> simp only [effectOf, State.mapBytes, State.mapPixels, State.convolve, State.convolveCustom,
    ne_eq, not_true_eq_false, reduceCtorEq, not_false_eq_true] at h ⊢ <;> (try split) <;> simp

/-- Every effect keeps the canonical form of memory. -/
theorem effectOf_memWf (i : Instr) (s : State) (h : s.mem.wf = true) : (effectOf i s).mem.wf = true := by
  cases i <;> simp only [effectOf, State.mapBytes, State.mapPixels, State.convolve, State.convolveCustom,
    State.equalize] <;> (try split) <;> simp [Memory.wf_writeAll, h]

/-- A state with the same registers of the image has the same geometry. -/
theorem State.geometry_congr {s t : State} (hw : t.width = s.width) (hh : t.height = s.height) (hf : t.fmt = s.fmt) :
    t.imgW = s.imgW ∧ t.imgH = s.imgH ∧ t.bpp = s.bpp ∧ t.nBytes = s.nBytes ∧ t.format = s.format := by
  simp [State.imgW, State.imgH, State.bpp, State.nBytes, State.nPix, State.format, hw, hh, hf]

/-- The checks read the size, the format, the capacity and two kernel registers only. -/
theorem State.check_congr {s t : State} (h1 : t.pixcap = s.pixcap) (h2 : t.width = s.width) (h3 : t.height = s.height)
    (h4 : t.fmt = s.fmt) (h5 : t.kside = s.kside) (h6 : t.kdiv = s.kdiv) (i : Instr) : t.check i = s.check i := by
  obtain ⟨-, -, -, hn, hf⟩ := State.geometry_congr h2 h3 h4
  simp [State.check, State.kernelError, h1, hn, hf, h5, h6]

/-- An accepted command's image fits the pixel memory, and its format is one the command is defined for. -/
theorem State.check_none {s : State} {i : Instr} (h : s.check i = none) :
    s.nBytes ≤ s.pixcap ∧ wrongFormat i s.format = false := by
  unfold State.check at h
  split at h
  · simp at h
  · split at h
    · simp at h
    · rename_i h1 h2
      exact ⟨by omega, by simpa using h1⟩

/-- The cells that a command's effect stores. -/
def effectCells : Instr → State → List Host.Cell
  | .neg, s => (List.range s.nBytes).map fun a => (a, negByte (s.pix a))
  | .gray, s => s.pixels.flatMap fun p => s.rgbCells p.1 p.2 (grayPixel (s.rgb p.1 p.2))
  | .bright imm, s => (List.range s.nBytes).map fun a => (a, brightByte imm (s.pix a))
  | .thresh imm, s => (List.range s.nBytes).map fun a => (a, threshByte imm (s.pix a))
  | .convBox, s => s.convNew boxKernel
  | .convGauss, s => s.convNew gaussKernel
  | .convSharpen, s => s.convNew sharpenKernel
  | .convOutline, s => s.convNew outlineKernel
  | .convEmboss, s => s.convNew embossKernel
  | .convCustom, s => if s.kside.toNat % 2 = 0 then [] else s.convNew s.customKernel
  | .equalize, s => if s.degenerate then [] else s.pixels.flatMap fun p => s.equalizedCells p.1 p.2

/-- A command's effect on pixel memory is one store of its cells. -/
theorem effectOf_mem (i : Instr) (s : State) : (effectOf i s).mem = s.mem.writeAll (effectCells i s) := by
  cases i <;> simp only [effectOf, effectCells, State.mapBytes, State.mapPixels, State.convolve, State.convolveCustom,
    State.equalize] <;> (try split) <;> simp

/-- A command of the right format stores to the active region only. -/
theorem effectCells_lt {i : Instr} {s : State} (h : wrongFormat i s.format = false) :
    ∀ d ∈ effectCells i s, d.1 < s.nBytes := by
  have hmap : ∀ (f : Byte → Byte), ∀ d ∈ (List.range s.nBytes).map fun a => (a, f (s.pix a)), d.1 < s.nBytes := by
    intro f d hd
    obtain ⟨a, ha, rfl⟩ := List.mem_map.1 hd
    exact List.mem_range.1 ha
  have hconv : ∀ k, ∀ d ∈ s.convNew k, d.1 < s.nBytes := by
    intro k d hd
    obtain ⟨x, y, c, hx, hy, -, hc, rfl⟩ := (State.mem_convNew d).1 hd
    exact State.addr_lt hx hy hc
  cases i with
  | neg => exact hmap _
  | bright imm => exact hmap _
  | thresh imm => exact hmap _
  | gray =>
    intro d hd
    have hf : s.format = .rgb24 := by cases hh : s.format <;> simp_all [wrongFormat]
    obtain ⟨x, y, c, hx, hy, -, hc, rfl⟩ :=
      (State.mem_mapPixels_cells hf (fun x y => grayPixel (s.rgb x y)) d).1 hd
    exact State.addr_lt hx hy hc
  | convBox => exact hconv _
  | convGauss => exact hconv _
  | convSharpen => exact hconv _
  | convOutline => exact hconv _
  | convEmboss => exact hconv _
  | convCustom =>
    intro d hd
    simp only [effectCells] at hd
    split at hd
    · simp at hd
    · exact hconv _ d hd
  | equalize =>
    intro d hd
    simp only [effectCells] at hd
    split at hd
    · simp at hd
    · obtain ⟨x, y, c, hx, hy, -, hc, rfl⟩ := (State.mem_equalize_cells d).1 hd
      exact State.addr_lt hx hy hc

/-- A command of the right format leaves every byte outside the active region alone. -/
theorem effectOf_outside {i : Instr} {s : State} (h : wrongFormat i s.format = false) {a : Nat} (ha : s.nBytes ≤ a) :
    (effectOf i s).mem.read a = s.mem.read a := by
  rw [effectOf_mem]; exact State.read_store_outside ha (effectCells_lt h)

/-- An accepted command writes no byte at or above the capacity. -/
theorem effectOf_memBelow {i : Instr} {s : State} (h : s.check i = none) (hm : Memory.below s.pixcap s.mem = true) :
    Memory.below s.pixcap (effectOf i s).mem = true := by
  obtain ⟨h1, h2⟩ := State.check_none h
  rw [effectOf_mem]
  exact Memory.below_writeAll _ (fun c hc => lt_of_lt_of_le (effectCells_lt h2 c hc) h1) hm

/-- `STATUS` as a read returns it, for each value that an event gives it (10_state.md R24). -/
theorem Status.word_values :
    Status.idle.word = 0x00000000 ∧ Status.inFlight.word = 0x00000001 ∧ Status.completed.word = 0x00000002 ∧
    (Status.rejected .illegal).word = 0x00000014 ∧ (Status.rejected .mode).word = 0x00000024 ∧
    (Status.rejected .size).word = 0x00000034 ∧ (Status.rejected .kside).word = 0x00000044 ∧
    (Status.rejected .kdiv).word = 0x00000054 := by decide

/-- `STATUS` as a number: `BUSY` bit 0, `DONE` bit 1, `ERR` bit 2, `ERRCODE` bits 7:4, nothing else (10_state.md R24). -/
theorem Status.word_toNat (st : Status) :
    st.word.toNat = st.busy.toNat + 2 * st.done.toNat + 4 * st.err.toNat + 16 * st.errCode.toNat := by
  obtain ⟨b, d, e, c⟩ := st
  cases b <;> cases d <;> cases e <;> (revert c; decide)

end Sys2Proof.Machine
end

