-- ==== Sys2Proof/Laws/Machine.lean ====
section
/-! SUPPORT. What one step can do, said once: the three cases of a step, and one lemma per host access. -/

namespace Sys2Proof.Machine

/-- A step is the idle step of an ended run, a step of the host, or a completion. -/
theorem step_cases (s : State) :
    (s.inFlight = none ∧ s.script = [] ∧ step s = .next s) ∨
    (∃ op rest, s.script = op :: rest ∧ (∀ i, s.inFlight = some i → s.turns.head? = some .host) ∧
      step s = hostAccess op { s.useTurn with script := rest }) ∨
    (∃ i, s.inFlight = some i ∧ (s.script = [] ∨ s.turns.head? ≠ some .host) ∧ step s = exec i s.useTurn) := by
  unfold step systemStep State.mover
  cases hf : s.inFlight with
  | none =>
    cases hs : s.script with
    | nil => left; simp
    | cons op rest =>
      right; left
      refine ⟨op, rest, rfl, by simp, ?_⟩
      simp [hostStep, hs]
  | some i =>
    right
    cases hs : s.script with
    | nil =>
      right
      refine ⟨i, rfl, by simp, ?_⟩
      simp [engineStep, hf]
    | cons op rest =>
      cases ht : s.turns with
      | nil => right; exact ⟨i, rfl, by simp, by simp [engineStep, hf]⟩
      | cons a as =>
        cases a with
        | host => left; exact ⟨op, rest, rfl, by simp, by simp [hostStep, hs]⟩
        | engine => right; exact ⟨i, rfl, by simp, by simp [engineStep, hf]⟩

/-- A guarded access happens exactly outside the busy window, with nothing in flight. -/
theorem guarded_next {s t : State} {r : Host.Outcome State Fault Refusal} :
    guarded s r = .next t ↔ s.ready ∧ r = .next t := by
  unfold guarded State.ready; cases s.windowOpen <;> cases s.inFlight <;> simp

theorem atRegister_next {off : Nat} {t : State} {r : Host.Outcome State Fault Refusal} :
    atRegister off r = .next t ↔ registerOffset off = true ∧ r = .next t := by
  unfold atRegister; cases registerOffset off <;> simp

theorem atPixel_next {s t : State} {a : Nat} {r : Host.Outcome State Fault Refusal} :
    atPixel s a r = .next t ↔ a < s.pixcap ∧ r = .next t := by
  unfold atPixel; split <;> simp_all

/-- What the issue of a word can do. -/
theorem issue_cases (w : Word) (s : State) :
    (∃ why, decode w = .illegal why ∧ issue w s = .next ((s.setCmd w).reject .illegal)) ∨
    (∃ i, decode w = .instr i ∧ issue w s = exec i (s.setCmd w)) := by
  unfold issue
  cases h : decode w with
  | illegal why => exact .inl ⟨why, rfl, rfl⟩
  | instr i => exact .inr ⟨i, rfl, rfl⟩

/-- The issue of a word never ends in a fault or a refusal. -/
theorem issue_next (w : Word) (s : State) : ∃ t, issue w s = .next t := by
  rcases issue_cases w s with ⟨why, -, h⟩ | ⟨i, -, h⟩
  · exact ⟨_, h⟩
  · obtain ⟨t, ht⟩ := exec_next i (s.setCmd w)
    exact ⟨t, h.trans ht⟩

/-- What a host access can do when it answers a next state. -/
theorem hostAccess_cases {op : HostOp} {s t : State} (h : hostAccess op s = .next t) :
    (∃ off, op = .regRead off ∧ registerOffset off = true ∧ (off = 0x004 ∨ s.ready) ∧ t = s.readReg off) ∨
    (∃ w, op = .regWrite 0x000 w ∧ s.ready ∧ issue w s = .next t) ∨
    (∃ off v, op = .regWrite off v ∧ off ≠ 0x000 ∧ registerOffset off = true ∧ s.ready ∧
      t = s.writeReg off v) ∨
    (∃ a, op = .pixRead a ∧ a < s.pixcap ∧ s.ready ∧ t = s.readPix a) ∨
    (∃ a b, op = .pixWrite a b ∧ a < s.pixcap ∧ s.ready ∧ t = s.writePix a b) ∨
    (op = .wait ∧ s.status.busy = true ∧ t = { s.readReg 0x004 with script := .wait :: s.script }) ∨
    (op = .wait ∧ s.status.busy = false ∧ t = s.readReg 0x004) ∨
    (op = .reset ∧ t = s.platformReset) := by
  cases op with
  | regRead off =>
    left
    simp only [hostAccess, atRegister_next] at h
    obtain ⟨h1, h2⟩ := h
    refine ⟨off, rfl, h1, ?_⟩
    by_cases h4 : off = 4
    · simp only [h4, ↓reduceIte, Host.Outcome.next.injEq] at h2
      exact ⟨.inl h4, by rw [h4]; exact h2.symm⟩
    · simp only [h4, ↓reduceIte, guarded_next, Host.Outcome.next.injEq] at h2
      exact ⟨.inr h2.1, h2.2.symm⟩
  | regWrite off v =>
    simp only [hostAccess, atRegister_next, guarded_next] at h
    obtain ⟨h1, h2, h3⟩ := h
    by_cases h0 : off = 0
    · right; left
      subst h0
      exact ⟨v, rfl, h2, by simpa using h3⟩
    · right; right; left
      simp only [h0, ↓reduceIte, Host.Outcome.next.injEq] at h3
      exact ⟨off, v, rfl, h0, h1, h2, h3.symm⟩
  | pixRead a =>
    simp only [hostAccess, atPixel_next, guarded_next, Host.Outcome.next.injEq] at h
    right; right; right; left
    exact ⟨a, rfl, h.1, h.2.1, h.2.2.symm⟩
  | pixWrite a b =>
    simp only [hostAccess, atPixel_next, guarded_next, Host.Outcome.next.injEq] at h
    right; right; right; right; left
    exact ⟨a, b, rfl, h.1, h.2.1, h.2.2.symm⟩
  | wait =>
    simp only [hostAccess, Host.Outcome.next.injEq] at h
    right; right; right; right; right
    cases hb : s.status.busy with
    | true => left; exact ⟨rfl, rfl, by rw [hb] at h; exact h.symm⟩
    | false => right; left; exact ⟨rfl, rfl, by rw [hb] at h; exact h.symm⟩
  | reset =>
    simp only [hostAccess, Host.Outcome.next.injEq] at h
    right; right; right; right; right; right; right
    exact ⟨rfl, h.symm⟩

end Sys2Proof.Machine
end

