-- ==== Sys2Proof/Laws/PerInstr.lean ====
section
/-! SUPPORT. Facts about a command as syntax, one lemma per constructor: its encoding lies in its own row of the opcode table
(30_encoding.md R96). -/

namespace Sys2Proof.Laws.EncodingRow

/-- The word that encodes `i` is the command of the table row with `i`'s mnemonic. -/
def Statement (i : Instr) : Prop :=
  ∃ r ∈ opcodeTable, r.mnemonic = i.mnemonic ∧ r.holds (encode i) = true

theorem neg : Statement .neg := ⟨⟨"NEG", 0xFFFFFFFF, 0x00000001⟩, by decide, rfl, by decide⟩
theorem gray : Statement .gray := ⟨⟨"GRAY", 0xFFFFFFFF, 0x00000002⟩, by decide, rfl, by decide⟩

/-- The low half of an immediate command does not depend on the immediate. -/
theorem low_half (imm16 : BitVec 16) (op : BitVec 4) :
    (fieldsWord imm16 0 op &&& 0x0000FFFF) = fieldsWord 0 0 op &&& 0x0000FFFF := by
  apply BitVec.eq_of_getLsbD_eq
  intro i hi
  simp only [fieldsWord, BitVec.getLsbD_and, BitVec.getLsbD_append]
  by_cases h : i < 16
  · by_cases h1 : i < 4
    · simp [h1]
    · by_cases h2 : i - 4 < 4
      · simp [h1, h2]
      · have h3 : i - 4 - 4 < 8 := by omega
        simp [h1, h2, h3]
  · have hm : (65535#32).getLsbD i = false := by
      rw [show 65535#32 = BitVec.ofNat 32 (2 ^ 16 - 1) from rfl, BitVec.getLsbD_ofNat,
        Nat.testBit_two_pow_sub_one]
      simp; omega
    simp [hm]

theorem bright (imm : Int) : Statement (.bright imm) :=
  ⟨⟨"BRIGHT", 0x0000FFFF, 0x00000003⟩, by decide, rfl, by simp only [OpcodeRow.holds, encode, low_half]; decide⟩
theorem thresh (imm : Int) : Statement (.thresh imm) :=
  ⟨⟨"THRESH", 0x0000FFFF, 0x00000004⟩, by decide, rfl, by simp only [OpcodeRow.holds, encode, low_half]; decide⟩
theorem convBox : Statement .convBox := ⟨⟨"CONV.BOX", 0xFFFFFFFF, 0x00000005⟩, by decide, rfl, by decide⟩
theorem convGauss : Statement .convGauss := ⟨⟨"CONV.GAUSS", 0xFFFFFFFF, 0x00000015⟩, by decide, rfl, by decide⟩
theorem convSharpen : Statement .convSharpen := ⟨⟨"CONV.SHARPEN", 0xFFFFFFFF, 0x00000025⟩, by decide, rfl, by decide⟩
theorem convOutline : Statement .convOutline := ⟨⟨"CONV.OUTLINE", 0xFFFFFFFF, 0x00000035⟩, by decide, rfl, by decide⟩
theorem convEmboss : Statement .convEmboss := ⟨⟨"CONV.EMBOSS", 0xFFFFFFFF, 0x00000045⟩, by decide, rfl, by decide⟩
theorem convCustom : Statement .convCustom := ⟨⟨"CONV.CUSTOM", 0xFFFFFFFF, 0x00000055⟩, by decide, rfl, by decide⟩
theorem equalize : Statement .equalize := ⟨⟨"EQUALIZE", 0xFFFFFFFF, 0x00000006⟩, by decide, rfl, by decide⟩

end Sys2Proof.Laws.EncodingRow
end

