-- ==== Sys2Proof/Laws/Session.lean ====
section
/-! SUPPORT. What an access of a load does to the machine, and an operation on a session without an image. -/

namespace Sys2Proof.Machine

/-- An access that a load may make is taken outside the busy window; it changes dimensions, format or pixel memory only. -/
theorem hostAccess_loadAccess {op : HostOp} {s : State} (hr : s.ready) (h : loadAccess s.pixcap op = true) :
    ∃ t, hostAccess op s = .next t ∧
      t = { s with width := t.width, height := t.height, fmt := t.fmt, mem := t.mem } := by
  obtain ⟨hf, hw⟩ := hr
  cases op with
  | regWrite off v =>
    simp only [loadAccess, Bool.or_eq_true, beq_iff_eq] at h
    refine ⟨s.writeReg off v, ?_, ?_⟩
    · rcases h with (rfl | rfl) | rfl <;> simp [hostAccess, atRegister, registerOffset, guarded, hf, hw]
    · rcases h with (rfl | rfl) | rfl <;> simp [State.writeReg]
  | pixWrite a b =>
    have ha : a < s.pixcap := by simpa [loadAccess] using h
    exact ⟨s.writePix a b, by simp [hostAccess, atPixel, ha, guarded, hf, hw], by simp [State.writePix, State.store]⟩
  | regRead _ => simp [loadAccess] at h
  | pixRead _ => simp [loadAccess] at h
  | wait => simp [loadAccess] at h
  | reset => simp [loadAccess] at h

/-- An operation on a session without an image is the host's error. -/
@[simp] theorem Session.onImage_none {α : Type} (f : SessionImage → Except SessionError α) :
    (⟨none⟩ : Session).onImage f = .error .noImage := rfl

end Sys2Proof.Machine
end

