-- ==== Sys2Proof/Tests/Slice0.lean ====
section
/-! SUPPORT. The model's own tests and the witnesses of the statements' hypotheses. Expected values are the spec's: the vectors
of 95_test_vectors.md and the examples of the command rules. -/

namespace Sys2Proof.Tests

open Sys2Proof.Machine

-- Many small kernel evaluations: one after another, since a thread for each needs a large stack.
set_option Elab.async false

/-! ## Helpers -/

/-- A machine with an image of the given format and size loaded, nothing in flight, 64 bytes of pixel memory. -/
def image (fmt w h : Nat) (bytes : List Nat) : State :=
  { State.resetWith 64 with
    width := BitVec.ofNat 16 w, height := BitVec.ofNat 16 h, fmt := BitVec.ofNat 1 fmt,
    mem := bytes.mapIdx fun i b => (i, BitVec.ofNat 8 b) }

/-- The same machine after the host-supplied kernel was written. -/
def withKernel (side d : Nat) (cs : List Int) (s : State) : State :=
  { s with
    kside := BitVec.ofNat 3 side, kdiv := BitVec.ofNat 16 d,
    kcoef := Vector.ofFn fun i => BitVec.ofInt 16 (cs.getD i.val 0) }

/-- The same machine with command `i` accepted and in flight, the host waiting. -/
def flying (i : Instr) (s : State) : State :=
  { s with cmd := encode i, status := Status.inFlight, inFlight := some i, windowOpen := true, script := [.wait] }

/-- The same machine with a host script. -/
def scripted (ops : List HostOp) (s : State) : State := { s with script := ops }

/-- The outcome is a next state with property `p`. -/
def nextWith (r : Host.Outcome State Fault Refusal) (p : State → Bool) : Bool :=
  match r with
  | .next t => p t
  | .fault _ => false
  | .refused _ => false

theorem nextWith_exists {r : Host.Outcome State Fault Refusal} {p : State → Bool} (h : nextWith r p = true) :
    ∃ t, r = .next t ∧ p t = true := by
  cases r <;> simp_all [nextWith]

/-- The outcome is the fault of the busy window. -/
def faults (r : Host.Outcome State Fault Refusal) : Bool :=
  match r with
  | .fault .busyWindow => true
  | .next _ => false
  | .refused _ => false

/-- The bytes of pixel memory, in address order. -/
def bytes (s : State) : List Nat := s.mem.map fun c => c.2.toNat

/-- The completion of `i` leaves these bytes and `STATUS = 0x2`. -/
def leaves (i : Instr) (s : State) (bs : List Nat) : Bool :=
  nextWith (exec i (flying i s)) fun t => decide (bytes t = bs) && decide (t.status.word = 0x00000002)

/-- The issue of the word from this machine answers this value of `STATUS`. -/
def issues (w : Word) (s : State) (st : Word) : Bool :=
  nextWith (step (scripted [.regWrite 0x000 w] s)) fun t => decide (t.status.word = st) && decide (t.cmd = w)

/-! ## Well-formedness (30_encoding.md R93): an ill-formed term for each check -/

theorem test_wellFormed_bright_high : (Instr.bright 32768).wellFormed = false := by decide
theorem test_wellFormed_bright_low : (Instr.bright (-32769)).wellFormed = false := by decide
theorem test_wellFormed_thresh_high : (Instr.thresh 32768).wellFormed = false := by decide
theorem test_wellFormed_thresh_low : (Instr.thresh (-32769)).wellFormed = false := by decide
theorem test_wellFormed_bounds :
    (Instr.bright 32767).wellFormed = true ∧ (Instr.bright (-32768)).wellFormed = true ∧
    (Instr.thresh 32767).wellFormed = true ∧ (Instr.thresh (-32768)).wellFormed = true := by decide

/-! ## Decoding: words written bit by bit from 30_encoding.md R90 and R96 (IMM16, RSV, KSEL, OP) -/

theorem test_decode_neg : decode 0b0000000000000000_00000000_0000_0001#32 = .instr .neg := by decide
theorem test_decode_gray : decode 0b0000000000000000_00000000_0000_0010#32 = .instr .gray := by decide
theorem test_decode_bright : decode 0b1111111011010100_00000000_0000_0011#32 = .instr (.bright (-300)) := by decide
theorem test_decode_thresh : decode 0b0000000010000000_00000000_0000_0100#32 = .instr (.thresh 128) := by decide
theorem test_decode_box : decode 0b0000000000000000_00000000_0000_0101#32 = .instr .convBox := by decide
theorem test_decode_gauss : decode 0b0000000000000000_00000000_0001_0101#32 = .instr .convGauss := by decide
theorem test_decode_sharpen : decode 0b0000000000000000_00000000_0010_0101#32 = .instr .convSharpen := by decide
theorem test_decode_outline : decode 0b0000000000000000_00000000_0011_0101#32 = .instr .convOutline := by decide
theorem test_decode_emboss : decode 0b0000000000000000_00000000_0100_0101#32 = .instr .convEmboss := by decide
theorem test_decode_custom : decode 0b0000000000000000_00000000_0101_0101#32 = .instr .convCustom := by decide
theorem test_decode_equalize : decode 0b0000000000000000_00000000_0000_0110#32 = .instr .equalize := by decide
theorem test_decode_table_word : decodeTableWord 32 0x012C0003 = some (.bright 300) := by decide

/-- V-ENC-18 to V-ENC-31: the illegal words, each with the reason of 30_encoding.md R97. -/
theorem test_decode_illegal :
    decode 0x00000000 = .illegal .reservedOp ∧ decode 0x00000007 = .illegal .reservedOp ∧
    decode 0x0000000F = .illegal .reservedOp ∧ legal 0xFFFFFFFF = false ∧
    decode 0x00000065 = .illegal .reservedKernel ∧ decode 0x000000F5 = .illegal .reservedKernel ∧
    decode 0x00000011 = .illegal .strayKsel ∧ decode 0x00000013 = .illegal .strayKsel ∧
    decode 0x00000101 = .illegal .strayRsv ∧ decode 0x00008003 = .illegal .strayRsv ∧
    decode 0x00010001 = .illegal .strayImm ∧ decode 0x00010005 = .illegal .strayImm ∧
    decode 0x00010006 = .illegal .strayImm ∧ decode 0x00010002 = .illegal .strayImm := by decide

/-! ## Point operations (95_test_vectors.md section 4) -/

/-- V-NEG-2. -/
theorem test_neg_rgb : leaves .neg (image 1 1 1 [10, 20, 30]) [245, 235, 225] = true := by decide +kernel
/-- V-NEG-1, with a byte outside the active region. -/
theorem test_neg_gray : leaves .neg (image 0 5 1 [0, 1, 127, 128, 255, 9]) [255, 254, 128, 127, 0, 9] = true := by
  decide +kernel
/-- V-GRAY-3: truncation. -/
theorem test_gray_truncates :
    leaves .gray (image 1 3 1 [0, 0, 2, 0, 0, 1, 1, 1, 0]) [0, 0, 0, 0, 0, 0, 0, 0, 0] = true := by decide +kernel
/-- V-GRAY-1. -/
theorem test_gray_mean : leaves .gray (image 1 2 1 [10, 20, 33, 10, 20, 32]) [21, 21, 21, 20, 20, 20] = true := by
  decide +kernel
/-- V-BRIGHT-1. -/
theorem test_bright_up : leaves (.bright 50) (image 0 5 1 [0, 100, 205, 206, 255]) [50, 150, 255, 255, 255] = true := by
  decide +kernel
/-- V-BRIGHT-2. -/
theorem test_bright_down :
    leaves (.bright (-50)) (image 0 5 1 [0, 100, 205, 206, 255]) [0, 50, 155, 156, 205] = true := by decide +kernel
/-- V-THRESH-1: the boundary is inclusive. -/
theorem test_thresh_inclusive :
    leaves (.thresh 128) (image 0 5 1 [0, 127, 128, 129, 255]) [0, 0, 255, 255, 255] = true := by decide +kernel
/-- V-THRESH-3: the immediate is signed. -/
theorem test_thresh_signed : leaves (.thresh (-1)) (image 0 3 1 [0, 1, 255]) [255, 255, 255] = true := by
  decide +kernel

/-! ## Convolution (95_test_vectors.md V-CONV-B, V-CONV-RGB, section 6) -/

/-- The image of V-CONV-B. -/
def imageB : State := image 0 4 4 [0, 0, 0, 0, 0, 255, 0, 0, 0, 0, 2, 0, 9, 0, 0, 100]

theorem test_box : leaves .convBox imageB [0, 0, 0, 0, 0, 29, 29, 0, 0, 30, 40, 0, 9, 0, 0, 100] = true := by
  decide +kernel
theorem test_gauss : leaves .convGauss imageB [0, 0, 0, 0, 0, 64, 32, 0, 0, 33, 23, 0, 9, 0, 0, 100] = true := by
  decide +kernel
theorem test_sharpen : leaves .convSharpen imageB [0, 0, 0, 0, 0, 255, 0, 0, 0, 0, 10, 0, 9, 0, 0, 100] = true := by
  decide +kernel
theorem test_outline : leaves .convOutline imageB [0, 0, 0, 0, 0, 255, 0, 0, 0, 0, 0, 0, 9, 0, 0, 100] = true := by
  decide +kernel
theorem test_emboss : leaves .convEmboss imageB [0, 0, 0, 0, 0, 0, 0, 0, 0, 255, 0, 0, 9, 0, 0, 100] = true := by
  decide +kernel

/-- The image of V-CONV-RGB. -/
def imageRgb : State := image 1 3 3
  [0, 0, 0, 10, 20, 30, 255, 255, 255, 40, 50, 60, 100, 150, 200, 70, 80, 90, 255, 0, 0, 0, 255, 0, 0, 0, 255]

/-- V-CONV-RGB, row `CONV.EMBOSS`: only the centre pixel is written. -/
theorem test_emboss_rgb :
    leaves .convEmboss imageRgb
      [0, 0, 0, 10, 20, 30, 255, 255, 255, 40, 50, 60, 85, 255, 255, 70, 80, 90, 255, 0, 0, 0, 255, 0, 0, 0, 255] =
        true := by decide +kernel

/-- V-CUST-2, second part: a side of 5 on a 3x3 colour image skips the taps outside. -/
theorem test_custom_skips_taps :
    leaves .convCustom (withKernel 5 25 (List.replicate 25 1) (image 1 3 3 (List.replicate 27 90)))
      (List.replicate 12 90 ++ [32, 32, 32] ++ List.replicate 12 90) = true := by decide +kernel
/-- V-CUST-5: a side of 1, ties upward, clamp. -/
theorem test_custom_side_one :
    leaves .convCustom (withKernel 1 2 [3] (image 0 3 3 [0, 1, 2, 85, 86, 170, 171, 255, 100]))
      [0, 2, 3, 128, 129, 255, 255, 255, 150] = true := by decide +kernel

/-! ## EQUALIZE (95_test_vectors.md section 7) -/

/-- V-EQ-8. -/
theorem test_equalize_rgb :
    leaves .equalize (image 1 2 1 [10, 20, 30, 200, 100, 50]) [0, 2, 12, 255, 231, 181] = true := by decide +kernel
/-- V-EQ-1: the image and entries of the three tables. -/
theorem test_equalize_gray :
    nextWith (exec .equalize (flying .equalize (image 0 4 2 [10, 10, 20, 30, 30, 30, 40, 250]))) (fun t =>
      decide (bytes t = [0, 0, 43, 170, 170, 170, 213, 255]) && decide (t.regValue 0x478 = 3) &&
        decide (t.regValue 0x89C = 6) && decide (t.regValue 0xC50 = 43) && decide (t.regValue 0xCA0 = 213)) =
      true := by decide +kernel

/-! ## Issue and host accesses (95_test_vectors.md sections 3, 8, 9) -/

/-- V-ERR-1 to V-ERR-15: the five codes and their order. -/
theorem test_issue_codes :
    issues 0x00000000 (image 0 2 2 []) 0x14 = true ∧
    issues 0x00000002 (image 0 2 2 []) 0x24 = true ∧
    issues 0x00800004 (image 1 2 2 []) 0x24 = true ∧
    issues 0x00000001 (image 0 9 8 []) 0x34 = true ∧
    issues 0x00000001 (image 0 8 8 []) 0x01 = true ∧
    issues 0x00000055 (withKernel 7 0 [] (image 0 2 2 [])) 0x44 = true ∧
    issues 0x00000055 (withKernel 3 0 [] (image 0 2 2 [])) 0x54 = true ∧
    issues 0x00000055 (withKernel 2 0 [] (image 0 2 2 [])) 0x01 = true ∧
    issues 0x00010004 (image 1 9 9 []) 0x24 = true ∧
    issues 0x00000055 (withKernel 7 0 [] (image 1 9 9 [])) 0x34 = true ∧
    issues 0x00000005 (withKernel 7 0 [] (image 0 2 2 [])) 0x01 = true := by decide +kernel

/-- The first word after reset is issued by the next step. -/
theorem test_first_command_after_reset :
    nextWith (step (State.reset.withFetchWord 32 0x00000001)) (fun t => decide (t.status.word = 0x00000001)) =
      true := by decide +kernel

/-- V-HAZ-1: an access before the window is closed faults, before and after the completion. -/
theorem test_busy_window_faults :
    faults (step { flying .neg (image 0 2 1 [1, 2]) with script := [.pixRead 0], turns := [.host] }) = true ∧
    faults (step { image 0 2 1 [1, 2] with status := Status.completed, windowOpen := true, script := [.pixRead 0] }) =
      true := by decide +kernel

/-- V-REG-2 to V-REG-8: writes store the assigned bits. -/
theorem test_register_masks :
    ((image 0 0 0 []).writeReg 0x008 0x12345678).regValue 0x008 = 0x5678 ∧
    ((image 0 0 0 []).writeReg 0x00C 0xFFFFFFFF).regValue 0x00C = 0xFFFF ∧
    ((image 0 0 0 []).writeReg 0x010 0xFFFFFFFE).regValue 0x010 = 0 ∧
    ((image 0 0 0 []).writeReg 0x014 0xF).regValue 0x014 = 7 ∧
    ((image 0 0 0 []).writeReg 0x018 0x00010000).regValue 0x018 = 0 ∧
    ((image 0 0 0 []).writeReg 0x040 0xFFFFFFFF).regValue 0x040 = 0xFFFF ∧
    ((image 0 0 0 []).writeReg 0x0A4 0xFFFFFFFF).regValue 0x0A4 = 0 := by decide +kernel

/-! ## The codec (95_test_vectors.md V-BMP-1, V-BMP-2) -/

/-- A header field of `n` bytes, little-endian. -/
def le (n v : Nat) : List Byte := (List.range n).map fun i => BitVec.ofNat 8 (v / 256 ^ i)

/-- The colour file of V-BMP-1. -/
def colourFile : List Byte :=
  [0x42, 0x4D] ++ le 4 78 ++ le 4 0 ++ le 4 54 ++ le 4 40 ++ le 4 4 ++ le 4 2 ++ le 2 1 ++ le 2 24 ++ List.replicate 24 0
    ++ (List.range 24).map fun i => BitVec.ofNat 8 (i + 1)

/-- The image V-BMP-1 says it loads as. -/
def colourImage : Loaded where
  width := 4
  height := 2
  format := .rgb24
  bytes := [15, 14, 13, 18, 17, 16, 21, 20, 19, 24, 23, 22, 3, 2, 1, 6, 5, 4, 9, 8, 7, 12, 11, 10]
  md := .color (colourFile.take 14) ((colourFile.drop 14).take 40)

theorem test_load_colour : loadFile 64 (some colourFile) = .ok colourImage := by decide +kernel

/-- The grayscale file of V-BMP-2. -/
def grayFile : List Byte :=
  List.replicate 18 0 ++ le 4 4 ++ le 4 2 ++ le 2 1 ++ le 2 8 ++ le 4 0 ++ le 4 8 ++ List.replicate 16 0
    ++ List.replicate 1024 7 ++ (List.range 8).map fun i => BitVec.ofNat 8 (i + 1)

/-- The image V-BMP-2 says it loads as. -/
def grayImage : Loaded where
  width := 4
  height := 2
  format := .gray8
  bytes := [1, 2, 3, 4, 5, 6, 7, 8]
  md := .gray (grayFile.take 54) (List.replicate 1024 7)

theorem test_load_gray : loadFile 64 (some grayFile) = .ok grayImage := by decide +kernel

/-! ## Witnesses: for every statement with hypotheses a state and operands that meet them -/

/-- A `GRAY8` image of 3 by 3 whose interior is one pixel. -/
def g33 : State := image 0 3 3 [10, 20, 30, 40, 50, 60, 70, 80, 90]

/-- The uniform colour image of V-BOX-3, cut to 3 by 3. -/
def u33 : State := image 1 3 3 [200, 100, 50, 200, 100, 50, 200, 100, 50, 200, 100, 50, 200, 100, 50, 200, 100, 50,
  200, 100, 50, 200, 100, 50, 200, 100, 50]

/-- The colour image of V-EQ-8. -/
def c21 : State := image 1 2 1 [10, 20, 30, 200, 100, 50]

theorem witness_DecodeEncodeReturnsTheCommand : (Instr.bright (-32768)).wellFormed = true := by decide
theorem witness_EncodeDecodeReturnsTheWord : decode 0x7FFF0003 = .instr (.bright 32767) := by decide
theorem witness_OpcodeTable_row :
    (⟨"CONV.CUSTOM", 0xFFFFFFFF, 0x00000055⟩ : OpcodeRow) ∈ opcodeTable ∧
    OpcodeRow.holds ⟨"CONV.CUSTOM", 0xFFFFFFFF, 0x00000055⟩ 0x55 = true := by decide
theorem witness_OpcodeTable_no_row : ∀ r ∈ opcodeTable, r.holds 0x65 = false := by decide
theorem witness_OpcodeTable_immediate : decode 0x00000004 = .instr (.thresh 0) := by decide
theorem witness_IllegalWords :
    (scripted [.regWrite 0x000 0xFFFFFFFF] g33).ready ∧ legal 0xFFFFFFFF = false := by
  exact ⟨⟨rfl, rfl⟩, by decide⟩
theorem witness_Immediate : decode 0x80000003 = .instr (.bright (-32768)) := by decide
theorem witness_IssueChecks_illegal : g33.inFlight = none ∧ legal 0x00000065 = false := by decide +kernel
theorem witness_IssueChecks_mode :
    (decode 0x2 = .instr .gray ∧ g33.fmt = 0) ∧ (decode 0x40004 = .instr (.thresh 4) ∧ u33.fmt = 1) := by
  decide +kernel
theorem witness_IssueChecks_size :
    let s := image 0 13 5 []
    s.imgW * s.imgH * s.bpp > s.pixcap ∧ decode 0x1 = .instr .neg := by decide +kernel
theorem witness_IssueChecks_fits :
    let s := image 0 8 8 []
    s.imgW * s.imgH * s.bpp ≤ s.pixcap ∧ s.imgW * s.imgH * s.bpp = 64 := by decide +kernel
theorem witness_IssueChecks_kernel :
    (withKernel 7 1 [] g33).kside = 7 ∧ (withKernel 5 0 [] g33).kside = 5 ∧ (withKernel 5 0 [] g33).kdiv = 0 ∧
    decode 0x55 = .instr .convCustom := by decide +kernel
theorem witness_Rejection :
    (scripted [.regWrite 0x000 0x2] g33).ready ∧
    ∃ t, step (scripted [.regWrite 0x000 0x2] g33) = .next t ∧ t.status.err = true :=
  ⟨⟨rfl, rfl⟩, nextWith_exists (by decide +kernel)⟩
theorem witness_Issue_illegal : decode 0x0 = .illegal .reservedOp := by decide
theorem witness_Issue_rejected : decode 0x2 = .instr .gray ∧ (scripted [.regWrite 0x000 0x2] g33).check .gray = some .mode := by
  decide +kernel
theorem witness_Issue_accepted :
    decode 0x1 = .instr .neg ∧ (scripted [.regWrite 0x000 0x1] g33).check .neg = none := by decide +kernel
theorem witness_StepRuns_issue : (scripted [.regWrite 0x000 0x1] g33).ready ∧ decode 0x1 = .instr .neg :=
  ⟨⟨rfl, rfl⟩, by decide⟩
theorem witness_StepRuns_completion : (flying .neg g33).inFlight = some .neg ∧ (flying .neg g33).engineTurn :=
  ⟨rfl, rfl, .inr (by decide)⟩
theorem witness_CompletionFrame :
    (flying .convBox g33).inFlight = some .convBox ∧ (flying .convBox g33).check .convBox = none ∧
    Instr.convBox ∈ catalog ∧ (flying .convBox g33).inImage 0 2 0 ∧ ¬ (flying .convBox g33).interior 1 0 2 := by
  refine ⟨rfl, by decide +kernel, by decide, ?_, ?_⟩
  · unfold State.inImage; decide +kernel
  · unfold State.interior; decide +kernel
theorem witness_CompletionFrame_even :
    (withKernel 4 0 [] (flying .convCustom g33)).kside.toNat % 2 = 0 ∧
    (withKernel 4 0 [] (flying .convCustom g33)).check .convCustom = none := by decide +kernel
/-- Two states that differ outside what `EQUALIZE` reads. -/
def g21a : State := flying .equalize (image 0 2 1 [7, 200, 1])
def g21b : State := { flying .equalize (image 0 2 1 [7, 200]) with lut := Vector.replicate 256 9, pixcap := 2 }
theorem witness_CompletionReads :
    g21a.inFlight = some .equalize ∧ g21b.inFlight = some .equalize ∧ g21a.check .equalize = none ∧
    g21b.check .equalize = none ∧ g21a.width = g21b.width ∧ g21a.height = g21b.height ∧ g21a.fmt = g21b.fmt ∧
    g21a.nBytes = 2 ∧ g21a.mem.read 0 = some 7 ∧ g21b.mem.read 0 = some 7 ∧ g21a.mem.read 1 = some 200 ∧
    g21b.mem.read 1 = some 200 := by decide +kernel
theorem witness_CompletionReads_runs :
    (∃ t, exec .equalize g21a = .next t) ∧ ∃ t, exec .equalize g21b = .next t :=
  ⟨exec_next _ _, exec_next _ _⟩
theorem witness_Neg : (flying .neg g33).inFlight = some .neg ∧ 8 < (flying .neg g33).nBytes := by decide +kernel
theorem witness_Gray : (flying .gray u33).inFlight = some .gray ∧ (flying .gray u33).fmt = 1 ∧
    2 < (flying .gray u33).imgW ∧ 2 < (flying .gray u33).imgH := by decide +kernel
theorem witness_Bright : (flying (.bright (-32768)) g33).inFlight = some (.bright (-32768)) := by decide +kernel
theorem witness_Thresh : (flying (.thresh 128) g33).inFlight = some (.thresh 128) ∧ (flying (.thresh 128) g33).fmt = 0 := by
  decide +kernel
theorem witness_PointLaws_neg : ∃ t u, completes .neg g33 t ∧ completes .neg t u := by
  obtain ⟨t, ht⟩ := exec_next .neg { g33 with inFlight := some .neg }
  obtain ⟨u, hu⟩ := exec_next .neg { t with inFlight := some .neg }
  exact ⟨t, u, ht, hu⟩
/-- The uniform image of the source's scenario T7, cut to 2 by 1. -/
theorem witness_PointLaws_gray :
    let s := image 1 2 1 (List.replicate 6 128)
    s.fmt = 1 ∧ (∀ a, a < s.nBytes → s.mem.read a = some 128) ∧ ∃ t u, completes .gray s t ∧ completes .neg t u := by
  refine ⟨by decide +kernel, by decide +kernel, ?_⟩
  obtain ⟨t, ht⟩ := exec_next .gray { image 1 2 1 (List.replicate 6 128) with inFlight := some .gray }
  obtain ⟨u, hu⟩ := exec_next .neg { t with inFlight := some .neg }
  exact ⟨t, u, ht, hu⟩
theorem witness_PointLaws_bright :
    ((0 : Int) ≤ 32767 ∧ (0 : Int) ≤ 32767) ∧ ∃ t u r, completes (.bright 32767) g33 t ∧ completes (.bright 32767) t u ∧
      completes (.bright (clampImm (32767 + 32767))) g33 r := by
  obtain ⟨t, ht⟩ := exec_next (.bright 32767) { g33 with inFlight := some (.bright 32767) }
  obtain ⟨u, hu⟩ := exec_next (.bright 32767) { t with inFlight := some (.bright 32767) }
  obtain ⟨r, hr⟩ := exec_next (.bright (clampImm (32767 + 32767)))
    { g33 with inFlight := some (.bright (clampImm (32767 + 32767))) }
  exact ⟨by decide, t, u, r, ht, hu, hr⟩
theorem witness_PointLaws_thresh : g33.fmt = 0 ∧ ∃ t u, completes (.thresh 50) g33 t ∧ completes .neg t u := by
  obtain ⟨t, ht⟩ := exec_next (.thresh 50) { g33 with inFlight := some (.thresh 50) }
  obtain ⟨u, hu⟩ := exec_next .neg { t with inFlight := some .neg }
  exact ⟨by decide +kernel, t, u, ht, hu⟩
theorem witness_Convolutions :
    (flying .convBox u33).inFlight = some .convBox ∧ (flying .convGauss u33).inFlight = some .convGauss ∧
    (flying .convSharpen u33).inFlight = some .convSharpen ∧ (flying .convOutline u33).inFlight = some .convOutline ∧
    (flying .convEmboss u33).inFlight = some .convEmboss := by decide +kernel
theorem witness_Convolution_interior : u33.inImage 1 1 2 ∧ u33.interior 1 1 1 ∧ u33.inImage 2 1 2 ∧ ¬ u33.interior 1 2 1 := by
  unfold State.inImage State.interior; decide +kernel
/-- A side of 5 on a colour image, as in V-CUST-2. -/
theorem witness_Custom :
    let s := flying .convCustom (withKernel 5 25 (List.replicate 25 1) u33)
    s.inFlight = some .convCustom ∧ s.kside = 5 ∧ s.kdiv ≠ 0 ∧ 2 * 2 + 1 = s.kside.toNat ∧ s.fmt ≠ 0 := by
  decide +kernel
theorem witness_Custom_even : (flying .convCustom (withKernel 6 0 [] g33)).kside = 6 := by decide +kernel
theorem witness_ConvLaws_border : Instr.convEmboss ∈ catalog ∧ g33.inImage 2 2 0 ∧ 2 + 1 = g33.imgW := by
  unfold State.inImage; decide +kernel
theorem witness_ConvLaws_uniform :
    ∀ x < u33.imgW, ∀ y < u33.imgH, ∀ c < u33.bpp,
      u33.mem.read (u33.addr x y c) = some (if c = 0 then 200 else if c = 1 then 100 else 50) := by decide +kernel
theorem witness_ConvLaws_uniform_custom :
    let s := withKernel 3 9 (List.replicate 9 1) u33
    s.kside = 3 ∧ s.kdiv ≠ 0 ∧
      (∑ n ∈ Finset.range (s.kside.toNat * s.kside.toNat), ((s.kcoef[n]?).getD 0).toInt) = (s.kdiv.toNat : Int) := by
  decide +kernel
theorem witness_ConvLaws_small : (image 0 2 5 []).imgW < 3 := by decide +kernel
theorem witness_Equalize_counts : g21a.inFlight = some .equalize ∧ g21a.darkest 7 := by
  refine ⟨rfl, ⟨(0, 0), by decide +kernel, by decide +kernel⟩, by decide +kernel⟩
theorem witness_Equalize_twoIntensities :
    g21a.twoIntensities ∧ g21a.darkest 7 ∧ g21a.brightest 200 ∧ g21a.fmt = 0 := by
  refine ⟨⟨(0, 0), by decide +kernel, (1, 0), by decide +kernel, by decide +kernel⟩,
    ⟨⟨(0, 0), by decide +kernel, by decide +kernel⟩, by decide +kernel⟩,
    ⟨⟨(1, 0), by decide +kernel, by decide +kernel⟩, by decide +kernel⟩, by decide +kernel⟩
theorem witness_Equalize_colour :
    (flying .equalize c21).inFlight = some .equalize ∧ (flying .equalize c21).fmt = 1 ∧
    (flying .equalize c21).twoIntensities :=
  ⟨rfl, by decide +kernel, (0, 0), by decide +kernel, (1, 0), by decide +kernel, by decide +kernel⟩
/-- V-EQ-5: pixels that differ in colour and share one luminance. -/
theorem witness_Equalize_degenerate :
    let s := flying .equalize (image 1 3 1 [100, 100, 100, 101, 100, 98, 99, 100, 103])
    s.inFlight = some .equalize ∧
      ¬ ∃ p ∈ s.pixelSet, ∃ q ∈ s.pixelSet, s.brightness p.1 p.2 ≠ s.brightness q.1 q.2 := by decide +kernel
theorem witness_ready : (scripted [.regWrite 0x0A0 5] g33).ready ∧ (0x040 + 4 * 24 : Nat) = 0x0A0 := ⟨⟨rfl, rfl⟩, rfl⟩
theorem witness_RegisterReads : (scripted [.regRead 0xFFC] g33).ready ∧ 0xFFC % 4 = 0 ∧ 0xFFC < 0x1000 ∧
    0xFFC = 0xC00 + 4 * 255 := ⟨⟨rfl, rfl⟩, by decide, by decide, rfl⟩
theorem witness_Reserved : (scripted [.regWrite 0x0A4 5] g33).ready ∧ (0x0A4 ≤ 0x0A4 ∧ 0x0A4 ≤ 0x3FC) ∧ 0x0A4 % 4 = 0 ∧
    (scripted [.regRead 0x1000] g33).ready ∧ 0x1000 ≤ 0x1000 :=
  ⟨⟨rfl, rfl⟩, by decide, by decide, ⟨rfl, rfl⟩, by decide⟩
theorem witness_ReadOnly : (scripted [.regWrite 0x400 5] g33).ready ∧ (0x400 ≤ 0x400 ∧ 0x400 < 0x1000 ∧ 0x400 % 4 = 0) :=
  ⟨⟨rfl, rfl⟩, by decide⟩
theorem witness_Pixel : (scripted [.pixWrite 63 5] g33).ready ∧ 63 < g33.pixcap ∧ (scripted [.pixRead 64] g33).ready ∧
    g33.pixcap ≤ 64 := ⟨⟨rfl, rfl⟩, by decide +kernel, ⟨rfl, rfl⟩, by decide +kernel⟩
theorem witness_BusyWindow_issue :
    g33.inFlight = none ∧ (∃ t, issue 0x1 g33 = .next t ∧ t.inFlight.isSome = true) ∧
      ∃ t, issue 0x0 g33 = .next t ∧ t.inFlight.isNone = true :=
  ⟨rfl, nextWith_exists (by decide +kernel), nextWith_exists (by decide +kernel)⟩
/-- The host's turn inside the window: while the command is in flight, and after its completion. -/
theorem witness_BusyWindow_access :
    let s : State := { flying .neg g33 with script := [.pixRead 8], turns := [.host] }
    let t : State := { g33 with status := Status.completed, windowOpen := true, script := [.regRead 0x004] }
    s.hostTurn ∧ s.windowOpen = true ∧ 8 < s.pixcap ∧ t.hostTurn ∧ t.windowOpen = true :=
  ⟨.inr rfl, rfl, by decide +kernel, .inl rfl, rfl⟩
theorem witness_Wait : ({ flying .neg g33 with turns := [.host] } : State).hostTurn := .inr rfl
theorem witness_Reset : ({ flying .neg g33 with script := [.reset], turns := [.host] } : State).hostTurn := .inr rfl
theorem witness_RunEnds : g33.ended = true ∧ ({ flying .neg g33 with script := [] } : State).inFlight = some .neg := by
  decide +kernel

/-- A state that meets the invariant with a command in flight. -/
theorem witness_Invariant : (flying .neg g33).Inv where
  statusLegal := by decide
  busyInFlight := rfl
  windowInFlight := fun _ => rfl
  accepted := by
    intro i hi
    obtain rfl : i = .neg := by simpa [flying, eq_comm] using hi
    exact ⟨by decide, by decide +kernel⟩
  memWf := by decide +kernel
  memBelow := by decide +kernel
theorem witness_Invariant_step : ∃ t, step (flying .neg g33) = .next t ∧ t.inFlight.isNone = true :=
  nextWith_exists (by decide +kernel)
theorem witness_Contract : (flying .neg g33).contract = true := by decide +kernel
theorem witness_Polled :
    let s : State := { flying .neg g33 with turns := [.host, .host] }
    s.inFlight = some .neg ∧ s.status.busy = true ∧ s.script = [.wait] := by decide +kernel
theorem witness_CdfSums : (State.resetWith 8).cdfSumsHist ∧ ∃ t, step (State.resetWith 8) = .next t ∧ t.inFlight.isNone = true := by
  refine ⟨⟨?_, fun i h => ?_⟩, nextWith_exists (by decide +kernel)⟩
  · simp [State.resetWith]
  · simp [State.resetWith]
theorem witness_WholeMachine_config :
    ∃ t, step (scripted [.regWrite 0x008 5] g33) = .next t ∧ (t.width != g33.width) = true :=
  nextWith_exists (by decide +kernel)
theorem witness_WholeMachine_memory :
    (∃ t, step (flying .neg g33) = .next t ∧ (t.mem.read 0 != g33.mem.read 0) = true) ∧
    ∃ t, step (flying .equalize g33) = .next t ∧ (t.hist != g33.hist) = true :=
  ⟨nextWith_exists (by decide +kernel), nextWith_exists (by decide +kernel)⟩
theorem witness_WholeMachine_status : ∃ t, step (flying .neg g33) = .next t ∧ (t.status != (flying .neg g33).status) = true :=
  nextWith_exists (by decide +kernel)
theorem witness_ColourRoundTrip :
    loadColor 64 colourFile = .ok colourImage ∧ filePixelBase colourFile = 54 ∧
    colourFile.length = 54 + colourImage.width * colourImage.height * 3 := by decide +kernel
theorem witness_GrayRoundTrip : loadGray 64 grayFile = .ok grayImage := by decide +kernel
theorem witness_LoadScript :
    (scripted grayImage.script (State.resetWith 8)).ready ∧ grayImage.width ≤ 65535 ∧ grayImage.height ≤ 65535 ∧
    grayImage.bytes.length ≤ (scripted grayImage.script (State.resetWith 8)).pixcap :=
  ⟨⟨rfl, rfl⟩, by decide, by decide, by decide +kernel⟩

/-- A file that loads, and one cut short whose load has written a byte and the width before it failed. -/
theorem witness_Session_ok : loadFile 64 (some colourFile) = .ok colourImage := test_load_colour
theorem witness_Session_failed :
    let part : List HostOp := [.regWrite 0x008 4, .pixWrite 5 9, .pixRead 5, .pixWrite 64 9, .regWrite 0x000 1]
    loadFile 64 (some (colourFile.take 70)) = .error .formatError ∧
    (Session.empty.load 64 (some (colourFile.take 70)) part).accesses = [.regWrite 0x008 4, .pixWrite 5 9] ∧
    (scripted [.regWrite 0x008 4, .pixWrite 5 9] g33).ready ∧ g33.pixcap = 64 := by
  refine ⟨by decide +kernel, by decide +kernel, ⟨rfl, rfl⟩, rfl⟩
theorem witness_Session_empty : Session.empty.image = none := rfl

end Sys2Proof.Tests
end

section
/-! Lemmas on the arithmetic primitives (00_scope.md R11) and the settlement of O8: when a floor quotient is `q`, the three
ranges of `clamp`, and the sign and the defining interval of `rhu`. -/

namespace Sys2Proof.Machine

/-- The floor quotient is the only `q` whose interval `[q*b, (q+1)*b)` holds the dividend. -/
theorem ediv_eq_iff_floor {a b q : Int} (hb : 0 < b) : a / b = q ↔ q * b ≤ a ∧ a < (q + 1) * b := by
  rw [Int.ediv_eq_iff_of_pos hb, add_one_mul]

theorem clamp_of_nonpos {v : Int} (h : v ≤ 0) : clamp v = 0 := by
  unfold clamp
  split <;> omega

theorem clamp_of_gt {v : Int} (h : 255 < v) : clamp v = 255 := by
  unfold clamp
  split <;> omega

theorem clamp_of_mem {v : Int} (h0 : 0 ≤ v) (h1 : v ≤ 255) : clamp v = v := by
  rw [clamp, if_neg h0.not_gt, if_neg h1.not_gt]

/-- `rhu n d = q` exactly when `q - 1/2 ≤ n/d < q + 1/2`: nearest, and a tie goes to the upper neighbour. -/
theorem rhu_eq_iff {n d q : Int} (hd : 0 < d) :
    rhu n d = q ↔ (2 * q - 1) * d ≤ 2 * n ∧ 2 * n < (2 * q + 1) * d := by
  have hlow : (2 * q - 1) * d = q * (2 * d) - d := by ring
  have hhigh : (2 * q + 1) * d = (q + 1) * (2 * d) - d := by ring
  rw [rhu, ediv_eq_iff_floor (by omega : 0 < 2 * d), hlow, hhigh]
  omega

theorem rhu_nonneg {n d : Int} (hd : 0 < d) (hn : 0 ≤ n) : 0 ≤ rhu n d :=
  Int.ediv_nonneg (by omega) (by omega)

theorem rhu_nonpos {n d : Int} (hd : 0 < d) (hn : n ≤ 0) : rhu n d ≤ 0 := by
  have hlt : rhu n d < 1 := Int.ediv_lt_of_lt_mul (by omega) (by omega)
  omega

/-- Ties away from zero differ from ties upward at negative quotients only, where both roundings are nonpositive and clamp
to 0. -/
theorem clamp_rhu_eq_clamp_tiesAway {n d : Int} (hd : 0 < d) :
    clamp (rhu n d) = clamp (if 0 ≤ n then rhu n d else -(rhu (-n) d)) := by
  split
  case isTrue => rfl
  case isFalse hneg =>
    have hup : rhu n d ≤ 0 := rhu_nonpos hd (by omega)
    have haway : 0 ≤ rhu (-n) d := rhu_nonneg hd (by omega)
    rw [clamp_of_nonpos hup, clamp_of_nonpos (by omega)]

/-- Settles O8: each clause is the law of its primitive, and the last holds because negative quotients clamp to 0 under
either tie rule. -/
theorem roundingIsNearestWithTiesUpward : Obligations.RoundingIsNearestWithTiesUpward :=
  ⟨fun _ _ _ hb => ediv_eq_iff_floor hb,
    fun _ => ⟨fun h => clamp_of_nonpos h.le, clamp_of_gt, clamp_of_mem⟩,
    fun _ _ _ hd => rhu_eq_iff hd,
    fun _ _ _ => rfl,
    fun _ _ hd => clamp_rhu_eq_clamp_tiesAway hd⟩

end Sys2Proof.Machine
end

section
/-! What one step of the machine can do, event by event: the case analysis of `step_cases` and `hostAccess_cases` said as one
inductive, with the accesses that only answer a value taken together. The invariants and the frame statements are each a case
split on it. -/

namespace Sys2Proof.Machine

/-! ### Small facts about the pieces of a step -/

@[simp] theorem State.useTurn_of_idle {s : State} (h : s.inFlight = none) : s.useTurn = s := by
  simp [State.useTurn, h]

/-- The state a host access starts from when the host may make any access: only the access itself has left the script. -/
theorem State.access_ready {s : State} {rest : List HostOp} (h : ({ s.useTurn with script := rest } : State).ready) :
    s.ready ∧ ({ s.useTurn with script := rest } : State) = { s with script := rest } := by
  obtain ⟨hf, hw⟩ := h
  simp only [State.useTurn_inFlight, State.useTurn_windowOpen] at hf hw
  exact ⟨⟨hf, hw⟩, by rw [State.useTurn_of_idle hf]⟩

theorem State.eq_with_script {s : State} {sc : List HostOp} (h : s.script = sc) : s = { s with script := sc } := by
  subst h; rfl

theorem State.setCmd_check (s : State) (w : Word) (i : Instr) : (s.setCmd w).check i = s.check i :=
  State.check_congr rfl rfl rfl rfl rfl rfl i

theorem State.useTurn_check (s : State) (i : Instr) : s.useTurn.check i = s.check i :=
  State.check_congr (by simp) (by simp) (by simp) (by simp) (by simp) (by simp) i

/-- The issue of a word with nothing in flight rejects it or accepts the command it decodes to, whose checks then all passed
(10_state.md R30). -/
theorem issue_reject_or_accept {w : Word} {s t : State} (hf : s.inFlight = none) (h : issue w s = .next t) :
    (∃ k, t = (s.setCmd w).reject k) ∨
    (∃ i, decode w = .instr i ∧ s.check i = none ∧ t = (s.setCmd w).accept i) := by
  obtain ⟨why, -, hw⟩ | ⟨i, hd, hi⟩ := issue_cases w s
  · exact .inl ⟨.illegal, Host.Outcome.next.inj (h.symm.trans hw)⟩
  · rw [exec_issue (s := s.setCmd w) hf, State.setCmd_check] at hi
    have ht := Host.Outcome.next.inj (h.symm.trans hi)
    cases hc : s.check i with
    | none => exact .inr ⟨i, hd, hc, by simpa [hc] using ht⟩
    | some k => exact .inl ⟨k, by simpa [hc] using ht⟩

/-! ### The events -/

/-- The events a step from `s` to `t` can be. A pending access is named by the head of the script. -/
inductive StepEvent (s t : State) : Prop
  /-- The idle step of an ended run, a read, or one poll of `WAIT`: registers, memory and the command in flight stay, and while
  `BUSY` is 1 so does the busy window. -/
  | quiet (config : sameConfig s t) (tables : sameTables s t) (mem : t.mem = s.mem) (status : t.status = s.status)
      (inFlight : t.inFlight = s.inFlight) (window : s.status.busy = true → t.windowOpen = s.windowOpen)
  /-- A write to a register other than `CMD`. -/
  | regWrite (off : Nat) (v : Word) (pending : s.script.head? = some (.regWrite off v)) (notCmd : off ≠ 0x000)
      (aligned : registerOffset off = true) (ready : s.ready)
      (next : t = State.writeReg { s with script := s.script.tail } off v)
  /-- A write to `CMD` that is rejected. -/
  | rejected (w : Word) (k : ErrCode) (pending : s.script.head? = some (.regWrite 0x000 w)) (ready : s.ready)
      (next : t = (State.setCmd { s with script := s.script.tail } w).reject k)
  /-- A write to `CMD` that is accepted. -/
  | accepted (w : Word) (i : Instr) (pending : s.script.head? = some (.regWrite 0x000 w)) (ready : s.ready)
      (legal : decode w = .instr i) (passed : s.check i = none)
      (next : t = (State.setCmd { s with script := s.script.tail } w).accept i)
  /-- `PixWrite`. -/
  | pixWrite (a : Nat) (b : Byte) (pending : s.script.head? = some (.pixWrite a b)) (below : a < s.pixcap)
      (ready : s.ready) (next : t = State.writePix { s with script := s.script.tail } a b)
  /-- The platform's reset. -/
  | reset (pending : s.script.head? = some .reset)
      (next : t = State.platformReset { s.useTurn with script := s.script.tail })
  /-- The completion of the command in flight. -/
  | completed (i : Instr) (running : s.inFlight = some i) (next : t = (effectOf i s.useTurn).complete)

/-- A read of a register changes neither registers nor memory, and closes the busy window only if `BUSY` is 0. -/
theorem StepEvent.of_readReg {s t : State} (off : Nat) (rest sc : List HostOp)
    (ht : t = { State.readReg { s.useTurn with script := rest } off with script := sc }) : StepEvent s t := by
  subst ht
  refine .quiet (by simp [sameConfig]) (by simp [sameTables]) (by simp) (by simp) (by simp) fun hb => ?_
  simp only [State.readReg_windowOpen, State.useTurn_windowOpen, State.useTurn_status, hb, Bool.and_true, ite_self]

/-- Every step that answers a next state is one of the events. -/
theorem step_event {s t : State} (h : step s = .next t) : StepEvent s t := by
  obtain ⟨-, -, hidle⟩ | ⟨op, rest, hs, -, hhost⟩ | ⟨i, hf, -, hengine⟩ := step_cases s
  case inl =>
    obtain rfl := Host.Outcome.next.inj (hidle.symm.trans h)
    exact .quiet (by simp [sameConfig]) (by simp [sameTables]) rfl rfl rfl fun _ => rfl
  case inr.inr =>
    rw [exec_complete (j := i) (by simpa using hf)] at hengine
    exact .completed i hf (Host.Outcome.next.inj (h.symm.trans hengine))
  have hhead : s.script.head? = some op := by simp [hs]
  have htail : s.script.tail = rest := by simp [hs]
  subst htail
  obtain ⟨off, -, -, -, ht⟩ | ⟨w, rfl, hr, hi⟩ | ⟨off, v, rfl, h0, hal, hr, ht⟩ | ⟨a, rfl, -, hr, ht⟩ |
    ⟨a, b, rfl, ha, hr, ht⟩ | ⟨-, -, ht⟩ | ⟨-, -, ht⟩ | ⟨rfl, ht⟩ := hostAccess_cases (hhost.symm.trans h)
  · exact .of_readReg off s.script.tail s.script.tail (ht.trans (State.eq_with_script (by simp)))
  · obtain ⟨hr, hu⟩ := State.access_ready hr
    rw [hu] at hi
    obtain ⟨k, ht⟩ | ⟨i, hd, hc, ht⟩ := issue_reject_or_accept (s := { s with script := s.script.tail }) hr.1 hi
    · exact .rejected w k hhead hr ht
    · exact .accepted w i hhead hr hd (State.check_congr (s := s) rfl rfl rfl rfl rfl rfl i ▸ hc) ht
  · obtain ⟨hr, hu⟩ := State.access_ready hr
    exact .regWrite off v hhead h0 hal hr (by rw [ht, hu])
  · subst ht
    exact .quiet (by simp [sameConfig]) (by simp [sameTables]) (by simp) (by simp) (by simp) (by simp)
  · obtain ⟨hr, hu⟩ := State.access_ready hr
    exact .pixWrite a b hhead (by simpa using ha) hr (by rw [ht, hu])
  · exact .of_readReg 0x004 s.script.tail (.wait :: s.script.tail) ht
  · exact .of_readReg 0x004 s.script.tail s.script.tail (ht.trans (State.eq_with_script (by simp)))
  · exact .reset hhead ht

end Sys2Proof.Machine
end

section
/-! The invariant of the machine (O48, O49): it holds at reset, whose registers are all 0 (O45), and each event of a step
keeps it. -/

namespace Sys2Proof.Machine

/-! ### The values that events give `STATUS` are among the eight of 10_state.md R24 -/

theorem Status.inFlight_legal : Status.inFlight.word ∈ legalStatusWords := by decide
theorem Status.completed_legal : Status.completed.word ∈ legalStatusWords := by decide
theorem Status.idle_legal : Status.idle.word ∈ legalStatusWords := by decide
theorem Status.rejected_legal (k : ErrCode) : (Status.rejected k).word ∈ legalStatusWords := by
  cases k <;> decide

/-- With nothing in flight the invariant asks of `STATUS` a legal value without `BUSY`, and of memory its form. -/
theorem State.Inv.of_idle {s : State} (hf : s.inFlight = none) (hst : s.status.word ∈ legalStatusWords)
    (hb : s.status.busy = false) (hwf : s.mem.wf = true) (hbelow : Memory.below s.pixcap s.mem = true) : s.Inv where
  statusLegal := hst
  busyInFlight := by simp [hf, hb]
  windowInFlight := by simp [hf]
  accepted := by simp [hf]
  memWf := hwf
  memBelow := hbelow

/-- A step that changes no register, no byte and no command in flight, and leaves the busy window alone while busy, keeps the
invariant. -/
theorem State.Inv.of_quiet {s t : State} (hinv : s.Inv) (hcfg : sameConfig s t) (hmem : t.mem = s.mem)
    (hst : t.status = s.status) (hf : t.inFlight = s.inFlight)
    (hw : s.status.busy = true → t.windowOpen = s.windowOpen) : t.Inv := by
  obtain ⟨hcap, hcmd, hwd, hht, hfmt, hks, hkd, -⟩ := hcfg
  exact {
    statusLegal := hst ▸ hinv.statusLegal
    busyInFlight := by rw [hst, hf, hinv.busyInFlight]
    windowInFlight := fun hi => by
      rw [hf] at hi
      rw [hw (hinv.busyInFlight.trans hi), hinv.windowInFlight hi]
    accepted := fun i hi => by
      rw [hcmd, State.check_congr hcap hwd hht hfmt hks hkd]
      exact hinv.accepted i (hf ▸ hi)
    memWf := hmem ▸ hinv.memWf
    memBelow := by rw [hcap, hmem]; exact hinv.memBelow }

/-- Every event keeps the invariant: most leave nothing in flight, an acceptance has just made the checks, and a completion of a
command that passed them stores below `PIXCAP`. -/
theorem StepEvent.keeps_inv {s t : State} (hinv : s.Inv) (h : StepEvent s t) : t.Inv := by
  have idle : s.ready → s.status.busy = false := fun hr => by simp [hinv.busyInFlight, hr.1]
  cases h with
  | quiet hcfg _ hmem hst hf hw => exact hinv.of_quiet hcfg hmem hst hf hw
  | regWrite off v _ _ _ hr ht =>
    subst ht
    exact .of_idle (by simp [hr.1]) (by simpa using hinv.statusLegal) (by simpa using idle hr)
      (by simpa using hinv.memWf) (by simpa using hinv.memBelow)
  | rejected w k _ hr ht =>
    subst ht
    exact .of_idle hr.1 (Status.rejected_legal k) rfl hinv.memWf hinv.memBelow
  | accepted w i _ hr hd hc ht =>
    subst ht
    exact {
      statusLegal := Status.inFlight_legal
      busyInFlight := rfl
      windowInFlight := fun _ => rfl
      accepted := fun j hj => by
        obtain rfl : i = j := Option.some.inj hj
        exact ⟨hd, (State.check_congr (s := s) rfl rfl rfl rfl rfl rfl i).trans hc⟩
      memWf := hinv.memWf
      memBelow := hinv.memBelow }
  | pixWrite a b _ ha hr ht =>
    subst ht
    exact .of_idle hr.1 hinv.statusLegal (idle hr) (Memory.wf_write a b hinv.memWf)
      (Memory.below_write b ha hinv.memBelow)
  | reset _ ht =>
    subst ht
    exact .of_idle rfl Status.idle_legal rfl rfl rfl
  | completed i hf ht =>
    subst ht
    have hcheck : s.useTurn.check i = none := (State.useTurn_check s i).trans (hinv.accepted i hf).2
    have hbelow := effectOf_memBelow hcheck (by simpa using hinv.memBelow)
    exact .of_idle rfl Status.completed_legal rfl (effectOf_memWf i _ (by simpa using hinv.memWf)) (by simpa using hbelow)

/-- Settles O49: every step is an event, and every event keeps the invariant. -/
theorem everyStepKeepsTheInvariant : Obligations.EveryStepKeepsTheInvariant :=
  fun _ _ hinv h => (step_event h).keeps_inv hinv

/-- Settles O45: every field of the reset state is written out as 0. -/
theorem resetLeavesEveryRegisterZero : Obligations.ResetLeavesEveryRegisterZero := by
  have zero : ∀ {n m i : Nat} (hi : i < m), (Vector.replicate m (0 : BitVec n))[i] = 0 := Vector.getElem_replicate
  exact ⟨rfl, Status.word_values.1, rfl, rfl, rfl, rfl, rfl, fun _ hi => zero hi,
    fun _ hi => ⟨zero hi, zero hi, zero hi⟩, rfl, fun _ => rfl⟩

/-- Settles O48: at reset nothing is in flight and no byte is written. -/
theorem invariantHoldsAtReset : Obligations.InvariantHoldsAtReset :=
  .of_idle rfl Status.idle_legal rfl State.reset_mem_wf rfl

end Sys2Proof.Machine
end

section
/-! `CDF` as the running sum of `HIST` (O52, O53): the tables are written together, by `EQUALIZE` or reset only. -/

namespace Sys2Proof.Machine

theorem State.cdfSumsHist_congr {s t : State} (hhist : t.hist = s.hist) (hcdf : t.cdf = s.cdf) :
    t.cdfSumsHist ↔ s.cdfSumsHist := by
  rw [State.cdfSumsHist, State.cdfSumsHist, hhist, hcdf]

/-- Two tables of zeros, as reset leaves them. -/
theorem State.cdfSumsHist_of_zero {s : State} (hhist : s.hist = Vector.replicate 256 0)
    (hcdf : s.cdf = Vector.replicate 256 0) : s.cdfSumsHist := by
  simp [State.cdfSumsHist, hhist, hcdf]

/-- The tables of 42_equalize.md R171: each running sum is the one before it plus the count, also as 32-bit words. -/
theorem State.cdfSumsHist_of_cumulate {s : State} {l : List Nat} (hl : l.length = 256) (hhist : s.hist = wordTable l)
    (hcdf : s.cdf = wordTable (cumulate 0 l)) : s.cdfSumsHist := by
  refine ⟨?_, fun i hi => ?_⟩
  · simp only [hhist, hcdf, wordTable_getElem]
    rw [cumulate_getD 0 l (by omega)]
    cases l <;> simp
  · simp only [hhist, hcdf, wordTable_getElem]
    rw [cumulate_succ l (by omega), BitVec.ofNat_add]

theorem State.equalize_cdfSumsHist (s : State) : s.equalize.cdfSumsHist :=
  State.cdfSumsHist_of_cumulate (histogram_length _) s.equalize_hist s.equalize_cdf

theorem effectOf_cdfSumsHist (i : Instr) {s : State} (h : s.cdfSumsHist) : (effectOf i s).cdfSumsHist := by
  by_cases hi : i = .equalize
  · subst hi; exact s.equalize_cdfSumsHist
  · exact (State.cdfSumsHist_congr (effectOf_hist i s hi) (effectOf_cdf i s hi)).2 h

theorem StepEvent.keeps_cdfSumsHist {s t : State} (hsum : s.cdfSumsHist) (h : StepEvent s t) : t.cdfSumsHist := by
  cases h with
  | quiet _ htables _ _ _ _ => exact (State.cdfSumsHist_congr htables.1 htables.2.1).2 hsum
  | regWrite off v _ _ _ _ ht =>
    subst ht
    exact (State.cdfSumsHist_congr (State.writeReg_hist _ off v) (State.writeReg_cdf _ off v)).2 hsum
  | rejected w k _ _ ht => subst ht; exact hsum
  | accepted w i _ _ _ _ ht => subst ht; exact hsum
  | pixWrite a b _ _ _ ht => subst ht; exact hsum
  | reset _ ht => subst ht; exact State.cdfSumsHist_of_zero rfl rfl
  | completed i _ ht =>
    subst ht
    exact effectOf_cdfSumsHist i ((State.cdfSumsHist_congr s.useTurn_hist s.useTurn_cdf).2 hsum)

/-- Settles O52: only `EQUALIZE` and reset write the two tables, and each leaves running sums. -/
theorem cdfStaysTheRunningSumOfHist : Obligations.CdfStaysTheRunningSumOfHist :=
  fun _ _ hsum h => (step_event h).keeps_cdfSumsHist hsum

/-- Settles O53: both tables are 0. -/
theorem cdfSumsHistAtReset : Obligations.CdfSumsHistAtReset := State.cdfSumsHist_of_zero rfl rfl

end Sys2Proof.Machine
end

section
/-! The rules of the host port: what a step is when the host moves, and what each access outside the busy window does. The
statements on register accesses (O11, O12, O37 to O40) apply these rules at an offset of the register map. -/

namespace Sys2Proof.Machine

/-! ### Whose step it is -/

/-- When the host moves, its next access is performed. -/
theorem step_host {s : State} {op : HostOp} {rest : List HostOp} (h : s.hostTurn) (hs : s.script = op :: rest) :
    step s = hostAccess op { s.useTurn with script := rest } := by
  obtain ⟨-, hnil, -⟩ | ⟨op', rest', hs', -, hstep⟩ | ⟨i, hf, hne, -⟩ := step_cases s
  · simp [hs] at hnil
  · obtain ⟨rfl, rfl⟩ := List.cons.inj (hs.symm.trans hs')
    exact hstep
  · obtain hf' | ht := h
    · simp [hf] at hf'
    · simp [hs, ht] at hne

/-- When the host may make any access, its next access starts from the state itself. -/
theorem step_ready {s : State} {op : HostOp} {rest : List HostOp} (h : s.ready) (hs : s.script = op :: rest) :
    step s = hostAccess op { s with script := rest } := by
  rw [step_host (.inl h.1) hs, State.useTurn_of_idle h.1]

/-- When the engine moves, the command in flight is executed, with the schedule's entry used up. -/
theorem step_engine {s : State} {i : Instr} (hf : s.inFlight = some i) (h : s.engineTurn) :
    step s = exec i { s with turns := s.turns.tail } := by
  obtain ⟨-, hmover⟩ := h
  obtain ⟨hidle, -⟩ | ⟨op, rest, hs, ht, -⟩ | ⟨j, hj, -, hstep⟩ := step_cases s
  · simp [hf] at hidle
  · have hhost := ht i hf
    simp [hs, hhost] at hmover
  · obtain rfl : i = j := Option.some.inj (hf.symm.trans hj)
    rw [hstep, State.useTurn, hf]
    rfl

/-! ### One rule per access outside the busy window -/

theorem guarded_ready {s : State} {r : Host.Outcome State Fault Refusal} (h : s.ready) : guarded s r = r := by
  simp [guarded, h.1, h.2]

theorem atRegister_of_offset {off : Nat} {r : Host.Outcome State Fault Refusal} (h : registerOffset off = true) :
    atRegister off r = r := by
  simp [atRegister, h]

theorem registerOffset_iff {off : Nat} : registerOffset off = true ↔ off % 4 = 0 ∧ off < 0x1000 := by
  simp [registerOffset]

/-- A write to `CMD` is the issue of the word. -/
theorem step_writeCmd {s : State} {w : Word} {rest : List HostOp} (h : s.ready)
    (hs : s.script = .regWrite 0x000 w :: rest) : step s = issue w { s with script := rest } := by
  rw [step_ready h hs]
  exact (atRegister_of_offset (by decide)).trans (guarded_ready h)

theorem step_writeReg {s : State} {off : Nat} {v : Word} {rest : List HostOp} (h : s.ready)
    (hs : s.script = .regWrite off v :: rest) (h0 : off ≠ 0x000) (hoff : registerOffset off = true) :
    step s = .next (State.writeReg { s with script := rest } off v) := by
  rw [step_ready h hs]
  refine (atRegister_of_offset hoff).trans ((guarded_ready h).trans ?_)
  rw [if_neg h0]

/-- A read outside the busy window answers the register's value and changes nothing else. -/
theorem step_readReg {s : State} {off : Nat} {rest : List HostOp} (h : s.ready) (hs : s.script = .regRead off :: rest)
    (hoff : registerOffset off = true) :
    step s = .next { s with script := rest, answers := .reg off (s.regValue off) :: s.answers } := by
  have hread : ({ s with script := rest } : State).readReg off
      = { s with script := rest, answers := .reg off (s.regValue off) :: s.answers } := by
    rw [State.readReg]
    split
    · simp only [h.2, Bool.false_and]; rfl
    · rfl
  rw [step_ready h hs, hostAccess, atRegister_of_offset hoff,
    guarded_ready (s := { s with script := rest }) h, ite_self, hread]

theorem step_writePix {s : State} {a : Nat} {b : Byte} {rest : List HostOp} (h : s.ready)
    (hs : s.script = .pixWrite a b :: rest) (ha : a < s.pixcap) :
    step s = .next (State.writePix { s with script := rest } a b) := by
  rw [step_ready h hs]
  exact (if_pos ha).trans (guarded_ready h)

/-- A register access outside the address space is refused. -/
theorem step_noSuchRegister {s : State} {off : Nat} {op : HostOp} {rest : List HostOp} (h : s.ready)
    (hs : s.script = op :: rest) (hop : op = .regRead off ∨ ∃ v, op = .regWrite off v)
    (hoff : registerOffset off = false) : step s = .refused (.noSuchRegister off) := by
  rw [step_ready h hs]
  obtain rfl | ⟨v, rfl⟩ := hop <;> simp [hostAccess, atRegister, hoff]

/-! ### The issue of a word -/

theorem issue_illegal {w : Word} {why : Illegal} (h : decode w = .illegal why) (s : State) :
    issue w s = .next ((s.setCmd w).reject .illegal) := by
  simp [issue, h]

theorem issue_instr {w : Word} {i : Instr} (h : decode w = .instr i) (s : State) : issue w s = exec i (s.setCmd w) := by
  simp [issue, h]

/-- A legal word written to `CMD` runs the command it decodes to, after `CMD` has taken it. -/
theorem step_issue {s : State} {w : Word} {rest : List HostOp} {i : Instr} (h : s.ready)
    (hs : s.script = .regWrite 0x000 w :: rest) (hd : decode w = .instr i) :
    step s = exec i (State.setCmd { s with script := rest } w) :=
  (step_writeCmd h hs).trans (issue_instr hd _)

theorem exec_reject {i : Instr} {s : State} {k : ErrCode} (hf : s.inFlight = none) (hc : s.check i = some k) :
    exec i s = .next (s.reject k) := by
  rw [exec_issue hf, hc]

theorem exec_accept {i : Instr} {s : State} (hf : s.inFlight = none) (hc : s.check i = none) :
    exec i s = .next (s.accept i) := by
  rw [exec_issue hf, hc]

/-- The checks on a legal command answer the codes 2 to 5 (60_exceptions.md R232). -/
theorem State.check_ne_illegal (s : State) (i : Instr) : s.check i ≠ some .illegal := by
  unfold State.check State.kernelError
  repeat' split
  all_goals simp

/-- Settles O12: the rules `step_issue` and `step_engine`. -/
theorem stepRunsTheDecodedCommand : Obligations.StepRunsTheDecodedCommand :=
  ⟨fun _ _ _ _ hr hs hd => step_issue hr hs hd, fun _ _ hf h => step_engine hf h⟩

/-- Settles O11: an illegal word is rejected by `issue`, a legal one by its first failing check or not at all. -/
theorem issueStoresDecodesChecksAndAnswers : Obligations.IssueStoresDecodesChecksAndAnswers := by
  intro s w rest hr hs
  have hcheck : ∀ i, (State.setCmd { s with script := rest } w).check i = s.check i :=
    State.check_congr rfl rfl rfl rfl rfl rfl
  refine ⟨fun why hd => ?_, fun i k hd hk => ⟨k.code, ?_, ?_⟩, fun i hd hc => ?_⟩
  · rw [step_writeCmd hr hs, issue_illegal hd]; rfl
  · cases k with
    | illegal => exact absurd hk (s.check_ne_illegal i)
    | mode | size | kside | kdiv => decide
  · exact (step_issue hr hs hd).trans (exec_reject hr.1 ((hcheck i).trans hk))
  · exact (step_issue hr hs hd).trans (exec_accept hr.1 ((hcheck i).trans hc))

/-! ### Register writes by offset -/

/-- A write at an offset that is no configuration register's is ignored: read-only and reserved ones (10_state.md R22, R38). -/
theorem State.writeReg_ignored {s : State} {off : Nat} (v : Word)
    (h : off < 0x008 ∨ (0x01C ≤ off ∧ off < 0x040) ∨ 0x0A4 ≤ off) : s.writeReg off v = s := by
  simp (disch := omega) only [State.writeReg, if_neg]

theorem State.writeReg_kcoefAt (s : State) (v : Word) {i : Nat} (h : i < 25) :
    s.writeReg (0x040 + 4 * i) v = { s with kcoef := s.kcoef.set i (v.setWidth 16) } := by
  have hi : (0x040 + 4 * i - 0x040) / 4 = i := by omega
  have hset : s.kcoef.setIfInBounds i (v.setWidth 16) = s.kcoef.set i (v.setWidth 16) := by
    ext j hj
    rw [Vector.getElem_setIfInBounds, Vector.getElem_set]
  simp (disch := omega) only [State.writeReg, if_neg, if_pos, hi, hset]

/-- Settles O37: each register's branch of `State.writeReg`, the assigned bits being the low ones of the word. -/
theorem configurationWritesStoreTheAssignedBits : Obligations.ConfigurationWritesStoreTheAssignedBits := by
  intro s v rest hr
  have low : ∀ n, n ≤ 32 → v.extractLsb' 0 n = v.setWidth n := fun _ hn => (BitVec.setWidth_eq_extractLsb' hn).symm
  rw [low 16 (by decide), low 3 (by decide), low 1 (by decide)]
  refine ⟨fun hs => step_writeReg hr hs (by decide) (by decide), fun hs => step_writeReg hr hs (by decide) (by decide),
    fun hs => step_writeReg hr hs (by decide) (by decide), fun hs => step_writeReg hr hs (by decide) (by decide),
    fun hs => step_writeReg hr hs (by decide) (by decide), fun i hi hs => ?_⟩
  rw [step_writeReg hr hs (by omega) (registerOffset_iff.2 ⟨by omega, by omega⟩), State.writeReg_kcoefAt _ _ hi]

/-- Settles O40: the step is `State.writeReg`, which ignores the offset. -/
theorem readOnlyRegistersIgnoreWrites : Obligations.ReadOnlyRegistersIgnoreWrites := by
  intro s v rest off hr hoff hs
  rw [step_writeReg hr hs (by omega) (registerOffset_iff.2 ⟨by omega, by omega⟩), State.writeReg_ignored _ (by omega)]

/-! ### Register reads by offset -/

theorem State.regValue_reserved {s : State} {off : Nat}
    (h : (0x01C ≤ off ∧ off < 0x040) ∨ (0x0A4 ≤ off ∧ off < 0x400)) : s.regValue off = 0 := by
  simp (disch := omega) only [State.regValue, if_neg]

theorem State.regValue_kcoef (s : State) {i : Nat} (h : i < 25) :
    s.regValue (0x040 + 4 * i) = s.kcoef[i].setWidth 32 := by
  have hi : (0x040 + 4 * i - 0x040) / 4 = i := by omega
  simp (disch := omega) only [State.regValue, if_neg, if_pos, hi, Vector.getElem?_eq_getElem h, Option.getD_some]

theorem State.regValue_hist (s : State) {i : Nat} (h : i < 256) : s.regValue (0x400 + 4 * i) = s.hist[i] := by
  have hi : (0x400 + 4 * i - 0x400) / 4 = i := by omega
  simp (disch := omega) only [State.regValue, if_neg, if_pos, hi, Vector.getElem?_eq_getElem h, Option.getD_some]

theorem State.regValue_cdf (s : State) {i : Nat} (h : i < 256) : s.regValue (0x800 + 4 * i) = s.cdf[i] := by
  have hi : (0x800 + 4 * i - 0x800) / 4 = i := by omega
  simp (disch := omega) only [State.regValue, if_neg, if_pos, hi, Vector.getElem?_eq_getElem h, Option.getD_some]

theorem State.regValue_lut (s : State) {i : Nat} (h : i < 256) :
    s.regValue (0xC00 + 4 * i) = s.lut[i].setWidth 32 := by
  have hi : (0xC00 + 4 * i - 0xC00) / 4 = i := by omega
  simp (disch := omega) only [State.regValue, if_neg, if_pos, hi, Vector.getElem?_eq_getElem h, Option.getD_some]

/-- A register shorter than the word reads as its own number: the bits above it are 0. -/
theorem toNat_setWidth_word {n : Nat} (hn : n ≤ 32) (x : BitVec n) : (x.setWidth 32).toNat = x.toNat := by
  rw [BitVec.toNat_setWidth, Nat.mod_eq_of_lt (x.isLt.trans_le (Nat.pow_le_pow_right (by decide) hn))]

/-- Settles O38: a read answers `State.regValue`, which is the register map. -/
theorem registerReadsFollowTheMap : Obligations.RegisterReadsFollowTheMap := by
  intro s rest off hr hs hal hlt
  refine ⟨s.regValue off, step_readReg hr hs (registerOffset_iff.2 ⟨hal, hlt⟩), ?_⟩
  refine ⟨?cmd, ?status, ?width, ?height, ?fmt, ?kside, ?kdiv, ?kcoef, ?hist, ?cdf, ?lut⟩
  case cmd => rintro rfl; rfl
  case status => rintro rfl; exact ⟨rfl, s.status.word_toNat⟩
  case width => rintro rfl; exact toNat_setWidth_word (by decide) s.width
  case height => rintro rfl; exact toNat_setWidth_word (by decide) s.height
  case fmt => rintro rfl; exact toNat_setWidth_word (by decide) s.fmt
  case kside => rintro rfl; exact toNat_setWidth_word (by decide) s.kside
  case kdiv => rintro rfl; exact toNat_setWidth_word (by decide) s.kdiv
  case kcoef => rintro i hi rfl; rw [s.regValue_kcoef hi, toNat_setWidth_word (by decide)]
  case hist => rintro i hi rfl; exact s.regValue_hist hi
  case cdf => rintro i hi rfl; exact s.regValue_cdf hi
  case lut => rintro i hi rfl; rw [s.regValue_lut hi, toNat_setWidth_word (by decide)]

/-- Settles O39: a reserved offset has the value 0 and no branch of `State.writeReg`; outside the block both are refused. -/
theorem reservedOffsetsReadZeroAndIgnoreWrites : Obligations.ReservedOffsetsReadZeroAndIgnoreWrites := by
  intro s v rest off hr
  refine ⟨fun hres hal => ?_, fun hout => ?_⟩
  · have hoff : registerOffset off = true := registerOffset_iff.2 ⟨hal, by omega⟩
    refine ⟨fun hs => ?_, fun hs => ?_⟩
    · rw [step_readReg hr hs hoff, State.regValue_reserved (by omega)]
    · rw [step_writeReg hr hs (by omega) hoff, State.writeReg_ignored _ (by omega)]
  · have hoff : registerOffset off = false := by
      rw [← Bool.not_eq_true, registerOffset_iff]
      omega
    exact ⟨fun hs => step_noSuchRegister hr hs (.inl rfl) hoff,
      fun hs => step_noSuchRegister hr hs (.inr ⟨v, rfl⟩) hoff⟩

end Sys2Proof.Machine
end

section
/-! Who changes what (O54 to O56): for each part of the state the events of a step that can write it. -/

namespace Sys2Proof.Machine

/-! ### A register write by field -/

theorem State.writeReg_width (s : State) (off : Nat) (v : Word) :
    (s.writeReg off v).width = if off = 0x008 then v.setWidth 16 else s.width := by
  unfold State.writeReg; repeat' split
  all_goals simp_all

theorem State.writeReg_height (s : State) (off : Nat) (v : Word) :
    (s.writeReg off v).height = if off = 0x00C then v.setWidth 16 else s.height := by
  unfold State.writeReg; repeat' split
  all_goals simp_all

theorem State.writeReg_fmt (s : State) (off : Nat) (v : Word) :
    (s.writeReg off v).fmt = if off = 0x010 then v.setWidth 1 else s.fmt := by
  unfold State.writeReg; repeat' split
  all_goals simp_all

theorem State.writeReg_kside (s : State) (off : Nat) (v : Word) :
    (s.writeReg off v).kside = if off = 0x014 then v.setWidth 3 else s.kside := by
  unfold State.writeReg; repeat' split
  all_goals simp_all

theorem State.writeReg_kdiv (s : State) (off : Nat) (v : Word) :
    (s.writeReg off v).kdiv = if off = 0x018 then v.setWidth 16 else s.kdiv := by
  unfold State.writeReg; repeat' split
  all_goals simp_all

theorem State.writeReg_kcoef (s : State) (off : Nat) (v : Word) :
    (s.writeReg off v).kcoef = if 0x040 ≤ off ∧ off < 0x0A4 then
      s.kcoef.setIfInBounds ((off - 0x040) / 4) (v.setWidth 16) else s.kcoef := by
  unfold State.writeReg; repeat' split
  all_goals simp_all

/-- A kernel coefficient is written only at its own offset, the offset being a multiple of 4. -/
theorem State.writeReg_kcoef_of_ne {s : State} {off i : Nat} (v : Word) (hi : i < 25) (hal : off % 4 = 0)
    (hne : off ≠ 0x040 + 4 * i) : (s.writeReg off v).kcoef[i] = s.kcoef[i] := by
  simp only [State.writeReg_kcoef]
  split
  · rw [Vector.getElem_setIfInBounds hi, if_neg (by omega)]
  · rfl

/-! ### The writers of each part -/

theorem sameConfig_completed (i : Instr) (s : State) : sameConfig s (effectOf i s.useTurn).complete := by
  simp [sameConfig]

/-- `t` differs from `s` in a configuration register only if `op` is the write to the offset of that register. -/
def ConfigWrittenBy (op : Option HostOp) (s t : State) : Prop :=
  (t.width ≠ s.width → ∃ v, op = some (.regWrite 0x008 v)) ∧
  (t.height ≠ s.height → ∃ v, op = some (.regWrite 0x00C v)) ∧
  (t.fmt ≠ s.fmt → ∃ v, op = some (.regWrite 0x010 v)) ∧
  (t.kside ≠ s.kside → ∃ v, op = some (.regWrite 0x014 v)) ∧
  (t.kdiv ≠ s.kdiv → ∃ v, op = some (.regWrite 0x018 v)) ∧
  (∀ (i : Nat) (h : i < 25), t.kcoef[i] ≠ s.kcoef[i] → ∃ v, op = some (.regWrite (0x040 + 4 * i) v)) ∧
  (t.cmd ≠ s.cmd → ∃ v, op = some (.regWrite 0x000 v))

theorem ConfigWrittenBy.of_same {op : Option HostOp} {s t : State} (h : sameConfig s t) : ConfigWrittenBy op s t := by
  obtain ⟨-, hcmd, hw, hh, hf, hks, hkd, hkc⟩ := h
  simp [ConfigWrittenBy, hcmd, hw, hh, hf, hks, hkd, hkc]

/-- A write to a register other than `CMD` changes that register only. -/
theorem ConfigWrittenBy.of_writeReg {s : State} {off : Nat} (v : Word) (sc : List HostOp)
    (hal : registerOffset off = true) :
    ConfigWrittenBy (some (.regWrite off v)) s (State.writeReg { s with script := sc } off v) := by
  have own : ∀ {off' : Nat}, off = off' →
      ∃ v', some (HostOp.regWrite off v) = some (.regWrite off' v') := fun h => ⟨v, by rw [h]⟩
  have hmod := (registerOffset_iff.1 hal).1
  refine ⟨fun h => own ?_, fun h => own ?_, fun h => own ?_, fun h => own ?_, fun h => own ?_,
    fun i hi h => own ?_, fun h => absurd (State.writeReg_cmd _ off v) h⟩
  · rw [State.writeReg_width] at h; exact by_contra fun hne => h (if_neg hne)
  · rw [State.writeReg_height] at h; exact by_contra fun hne => h (if_neg hne)
  · rw [State.writeReg_fmt] at h; exact by_contra fun hne => h (if_neg hne)
  · rw [State.writeReg_kside] at h; exact by_contra fun hne => h (if_neg hne)
  · rw [State.writeReg_kdiv] at h; exact by_contra fun hne => h (if_neg hne)
  · exact by_contra fun hne => h (State.writeReg_kcoef_of_ne v hi hmod hne)

/-- A write to `CMD` changes no other configuration register, whether it is rejected or accepted. -/
theorem ConfigWrittenBy.of_issue {s t : State} {w : Word} (hw : t.width = s.width) (hh : t.height = s.height)
    (hf : t.fmt = s.fmt) (hks : t.kside = s.kside) (hkd : t.kdiv = s.kdiv) (hkc : t.kcoef = s.kcoef) :
    ConfigWrittenBy (some (.regWrite 0x000 w)) s t := by
  simp [ConfigWrittenBy, hw, hh, hf, hks, hkd, hkc]

theorem StepEvent.config_writer {s t : State} (h : StepEvent s t) :
    t.pixcap = s.pixcap ∧ (s.script.head? = some .reset ∨ ConfigWrittenBy s.script.head? s t) := by
  cases h with
  | quiet hcfg _ _ _ _ _ => exact ⟨hcfg.1, .inr (.of_same hcfg)⟩
  | regWrite off v hop _ hal _ ht =>
    rw [hop, ht]
    exact ⟨State.writeReg_pixcap _ off v, .inr (.of_writeReg v _ hal)⟩
  | rejected w k hop _ ht => rw [hop, ht]; exact ⟨rfl, .inr (.of_issue rfl rfl rfl rfl rfl rfl)⟩
  | accepted w i hop _ _ _ ht => rw [hop, ht]; exact ⟨rfl, .inr (.of_issue rfl rfl rfl rfl rfl rfl)⟩
  | pixWrite a b _ _ _ ht => rw [ht]; exact ⟨rfl, .inr (.of_same (by simp [sameConfig]))⟩
  | reset hop ht => rw [ht]; exact ⟨s.useTurn_pixcap, .inl hop⟩
  | completed i _ ht => rw [ht]; exact ⟨(sameConfig_completed i s).1, .inr (.of_same (sameConfig_completed i s))⟩

/-- Settles O54: a register write changes the register at its own offset, an issue `CMD`, and a completion none. -/
theorem configurationChangesOnlyByItsOwnWrite : Obligations.ConfigurationChangesOnlyByItsOwnWrite :=
  fun _ _ h => (step_event h).config_writer

theorem StepEvent.memory_writer {s t : State} (h : StepEvent s t) {a : Nat} (hne : t.mem.read a ≠ s.mem.read a) :
    (∃ b, s.script.head? = some (.pixWrite a b)) ∨ s.script.head? = some .reset ∨
      (s.inFlight.isSome = true ∧ t.inFlight = none ∧ t.status.word = 0x00000002) := by
  cases h with
  | quiet _ _ hmem _ _ _ => exact absurd (by rw [hmem]) hne
  | regWrite off v _ _ _ _ ht => subst ht; exact absurd (by rw [State.writeReg_mem]) hne
  | rejected w k _ _ ht => subst ht; exact absurd rfl hne
  | accepted w i _ _ _ _ ht => subst ht; exact absurd rfl hne
  | pixWrite a' b hop _ _ ht =>
    subst ht
    have ha : a = a' := by_contra fun h => hne (Memory.read_write_other _ b h)
    exact .inl ⟨b, ha ▸ hop⟩
  | reset hop _ => exact .inr (.inl hop)
  | completed i hf ht => subst ht; exact .inr (.inr ⟨by simp [hf], rfl, Status.word_values.2.2.1⟩)

theorem StepEvent.tables_writer {s t : State} (h : StepEvent s t) (hne : ¬ sameTables s t) :
    s.script.head? = some .reset ∨ (s.inFlight = some .equalize ∧ t.inFlight = none) := by
  cases h with
  | quiet _ htables _ _ _ _ => exact absurd htables hne
  | regWrite off v _ _ _ _ ht => subst ht; exact absurd (by simp [sameTables]) hne
  | rejected w k _ _ ht => subst ht; exact absurd ⟨rfl, rfl, rfl⟩ hne
  | accepted w i _ _ _ _ ht => subst ht; exact absurd ⟨rfl, rfl, rfl⟩ hne
  | pixWrite a b _ _ _ ht => subst ht; exact absurd ⟨rfl, rfl, rfl⟩ hne
  | reset hop _ => exact .inl hop
  | completed i hf ht =>
    subst ht
    by_cases hi : i = .equalize
    · exact .inr ⟨hi ▸ hf, rfl⟩
    · exact absurd (by simp [sameTables, effectOf_hist, effectOf_cdf, effectOf_lut, hi]) hne

/-- Settles O55: of the events only `PixWrite`, reset and a completion write memory, only reset and the completion of `EQUALIZE`
the tables. -/
theorem memoryAndTablesChangeOnlyByTheirWriters : Obligations.MemoryAndTablesChangeOnlyByTheirWriters :=
  fun _ _ h => ⟨fun _ hne => (step_event h).memory_writer hne, fun hne => (step_event h).tables_writer hne⟩

theorem StepEvent.status_writer {s t : State} (h : StepEvent s t) (hne : t.status ≠ s.status) :
    (∃ w, s.script.head? = some (.regWrite 0x000 w)) ∨ s.script.head? = some .reset ∨
      (s.inFlight.isSome = true ∧ t.inFlight = none ∧ t.status.word = 0x00000002) := by
  cases h with
  | quiet _ _ _ hst _ _ => exact absurd hst hne
  | regWrite off v _ _ _ _ ht => subst ht; exact absurd (State.writeReg_status _ off v) hne
  | rejected w k hop _ _ => exact .inl ⟨w, hop⟩
  | accepted w i hop _ _ _ _ => exact .inl ⟨w, hop⟩
  | pixWrite a b _ _ _ ht => subst ht; exact absurd rfl hne
  | reset hop _ => exact .inr (.inl hop)
  | completed i hf ht => subst ht; exact .inr (.inr ⟨by simp [hf], rfl, Status.word_values.2.2.1⟩)

/-- Settles O56: of the events only a write to `CMD`, reset and a completion write `STATUS`. -/
theorem statusChangesOnlyByIssueCompletionReset : Obligations.StatusChangesOnlyByIssueCompletionReset :=
  fun _ _ h hne => (step_event h).status_writer hne

end Sys2Proof.Machine
end

section
/-! Completion: one step that ends `DONE` (O13), its frame (O14), what it reads (O15), and its coming while the host polls
(O51). -/

namespace Sys2Proof.Machine

/-! ### The completion step and its frame -/

/-- Settles O13: the engine's step is the completion of `exec_complete`, and no effect writes the fields listed. -/
theorem completionIsOneStepEndingDone : Obligations.CompletionIsOneStepEndingDone := by
  intro s i hf h
  have hstep : step s = .next (effectOf i { s with turns := s.turns.tail }).complete :=
    (step_engine hf h).trans (exec_complete (s := { s with turns := s.turns.tail }) hf)
  exact ⟨_, hstep, rfl, Status.word_values.2.2.1, rfl, by simp [sameConfig], by simp, by simp, by simp⟩

/-- The five catalog commands are convolutions with a kernel of side 3 (41_convolution.md R142). -/
theorem effectOf_catalog {i : Instr} (h : i ∈ catalog) : ∃ k : Kernel, k.half = 1 ∧ effectOf i = State.convolve k := by
  simp only [catalog, List.mem_cons, List.not_mem_nil, or_false] at h
  obtain rfl | rfl | rfl | rfl | rfl := h
  · exact ⟨boxKernel, rfl, rfl⟩
  · exact ⟨gaussKernel, rfl, rfl⟩
  · exact ⟨sharpenKernel, rfl, rfl⟩
  · exact ⟨outlineKernel, rfl, rfl⟩
  · exact ⟨embossKernel, rfl, rfl⟩

/-- The border of a kernel of side 3 is one pixel wide in both formats (41_convolution.md R145). -/
theorem State.border_of_half {k : Kernel} (hk : k.half = 1) (s : State) : s.border k = 1 := by
  unfold State.border
  split
  · exact hk
  · rfl

theorem State.inWriteRegion_iff_interior {k : Kernel} (hk : k.half = 1) {s : State} {x y : Nat} :
    s.inWriteRegion k x y ↔ s.interior 1 x y := by
  rw [State.inWriteRegion, s.border_of_half hk, State.interior]

theorem effectOf_custom_even {s : State} (h : s.kside.toNat % 2 = 0) : effectOf .convCustom s = s := by
  simp [effectOf, State.convolveCustom, h]

/-- Settles O14: the fields no effect writes, and for memory the cells its effect stores. -/
theorem completionFrame : Obligations.CompletionFrame := by
  intro s t i hf hcheck h
  obtain rfl := Host.Outcome.next.inj ((exec_complete hf).symm.trans h)
  refine ⟨⟨Status.word_values.2.2.1, rfl, by simp [sameConfig], by simp [sameHost]⟩, fun a ha => ?_, fun hi => ?_,
    fun hi x y c hin hborder => ?_, fun hi heven a => ?_⟩
  · exact effectOf_outside (State.check_none hcheck).2 ha
  · exact ⟨effectOf_hist i s hi, effectOf_cdf i s hi, effectOf_lut i s hi⟩
  · obtain ⟨k, hk, heff⟩ := effectOf_catalog hi
    obtain ⟨hx, hy, hc⟩ := hin
    rw [State.complete_mem, heff]
    exact (State.read_convolve hx hy hc).2 fun hw => hborder ((State.inWriteRegion_iff_interior hk).1 hw)
  · subst hi
    rw [State.complete_mem, effectOf_custom_even heven]

/-! ### The image as a command reads it -/

/-- Two states hold the same image: the same size and format, and the same value of every byte of the active region. -/
structure SameImage (s t : State) : Prop where
  width : t.width = s.width
  height : t.height = s.height
  fmt : t.fmt = s.fmt
  pix : ∀ a, a < s.nBytes → t.pix a = s.pix a

namespace SameImage

variable {s t : State} (h : SameImage s t)
include h

theorem imgW : t.imgW = s.imgW := (State.geometry_congr h.width h.height h.fmt).1

theorem imgH : t.imgH = s.imgH := (State.geometry_congr h.width h.height h.fmt).2.1

theorem bpp : t.bpp = s.bpp := (State.geometry_congr h.width h.height h.fmt).2.2.1

theorem nBytes : t.nBytes = s.nBytes := (State.geometry_congr h.width h.height h.fmt).2.2.2.1

theorem format : t.format = s.format := (State.geometry_congr h.width h.height h.fmt).2.2.2.2

theorem addr (x y c : Nat) : t.addr x y c = s.addr x y c := by
  rw [State.addr, State.addr, h.imgW, h.bpp]

theorem pixels : t.pixels = s.pixels := by
  rw [State.pixels, State.pixels, h.imgW, h.imgH]

theorem pixAt {x y c : Nat} (hx : x < s.imgW) (hy : y < s.imgH) (hc : c < s.bpp) :
    t.pix (t.addr x y c) = s.pix (s.addr x y c) := by
  rw [h.addr, h.pix _ (State.addr_lt hx hy hc)]

theorem rgb (hf : s.format = .rgb24) {x y : Nat} (hx : x < s.imgW) (hy : y < s.imgH) : t.rgb x y = s.rgb x y := by
  have hb := State.bpp_rgb24 hf
  rw [State.rgb, State.rgb, h.pixAt hx hy (by omega), h.pixAt hx hy (by omega), h.pixAt hx hy (by omega)]

theorem rgbCells (x y : Nat) (p : Rgb) : t.rgbCells x y p = s.rgbCells x y p := by
  simp only [State.rgbCells, h.addr]

/-! The cells of the point operations. -/

theorem mapBytes_cells (f : Byte → Byte) :
    ((List.range t.nBytes).map fun a => (a, f (t.pix a))) = (List.range s.nBytes).map fun a => (a, f (s.pix a)) := by
  rw [h.nBytes]
  exact List.map_congr_left fun a ha => by rw [h.pix a (List.mem_range.1 ha)]

theorem mapPixels_cells (hf : s.format = .rgb24) (f : Rgb → Rgb) :
    (t.pixels.flatMap fun p => t.rgbCells p.1 p.2 (f (t.rgb p.1 p.2)))
      = s.pixels.flatMap fun p => s.rgbCells p.1 p.2 (f (s.rgb p.1 p.2)) := by
  rw [h.pixels]
  refine List.flatMap_congr fun p hp => ?_
  obtain ⟨hx, hy⟩ := State.mem_pixels.1 hp
  rw [h.rgb hf hx hy, h.rgbCells]

/-! The cells of a convolution: a tap reads a byte of the image or nothing. -/

theorem tap (k : Kernel) (x y r q : Nat) {c : Nat} (hc : c < s.bpp) : t.tap k x y c r q = s.tap k x y c r q := by
  simp only [State.tap, h.imgW, h.imgH]
  split
  · rw [h.pixAt (by omega) (by omega) hc]
  · rfl

theorem convOut (k : Kernel) (x y : Nat) {c : Nat} (hc : c < s.bpp) : t.convOut k x y c = s.convOut k x y c := by
  simp only [State.convOut, State.tapSum, h.tap k x y _ _ hc]

theorem writeRegion (k : Kernel) : t.writeRegion k = s.writeRegion k := by
  simp only [State.writeRegion, State.border, h.pixels, h.imgW, h.imgH, h.format]

theorem convNew (k : Kernel) : t.convNew k = s.convNew k := by
  rw [State.convNew, State.convNew, h.writeRegion, h.bpp]
  refine List.flatMap_congr fun p _ => List.map_congr_left fun c hc => ?_
  rw [h.addr, h.convOut k _ _ (List.mem_range.1 hc)]

/-! The cells and the tables of `EQUALIZE`. -/

theorem intensity {x y : Nat} (hx : x < s.imgW) (hy : y < s.imgH) : t.intensity x y = s.intensity x y := by
  rw [State.intensity, State.intensity, h.format]
  cases hf : s.format with
  | gray8 => simp only [h.pixAt hx hy s.bpp_pos]
  | rgb24 => simp only [h.rgb hf hx hy]

theorem newHist : t.newHist = s.newHist := by
  rw [State.newHist, State.newHist, State.intensities, State.intensities, h.pixels]
  refine congrArg histogram (List.map_congr_left fun p hp => ?_)
  obtain ⟨hx, hy⟩ := State.mem_pixels.1 hp
  exact h.intensity hx hy

theorem newCdf : t.newCdf = s.newCdf := by
  rw [State.newCdf, State.newCdf, h.newHist]

theorem degenerate : t.degenerate = s.degenerate := by
  simp only [State.degenerate, State.cdfTotal, State.cdfMin, h.newCdf]

theorem newLut : t.newLut = s.newLut := by
  funext i
  simp only [State.newLut, State.cdfTotal, State.cdfMin, h.newCdf]

theorem equalizedCells {x y : Nat} (hx : x < s.imgW) (hy : y < s.imgH) :
    t.equalizedCells x y = s.equalizedCells x y := by
  rw [State.equalizedCells, State.equalizedCells, h.format]
  cases hf : s.format with
  | gray8 => simp only [h.addr, h.newLut, h.intensity hx hy]
  | rgb24 => simp only [h.rgbCells, h.newLut, h.intensity hx hy, h.rgb hf hx hy]

/-- The cells a command stores are the same for the same image, and for `CONV.CUSTOM` the same kernel registers. -/
theorem effectCells {i : Instr} (hfmt : wrongFormat i s.format = false)
    (hk : i = .convCustom → t.kside = s.kside ∧ t.kdiv = s.kdiv ∧ t.kcoef = s.kcoef) :
    effectCells i t = effectCells i s := by
  cases i with
  | neg => exact h.mapBytes_cells _
  | bright imm => exact h.mapBytes_cells _
  | thresh imm => exact h.mapBytes_cells _
  | gray =>
    have hf : s.format = .rgb24 := by cases hh : s.format <;> simp_all [wrongFormat]
    exact h.mapPixels_cells hf _
  | convBox => exact h.convNew _
  | convGauss => exact h.convNew _
  | convSharpen => exact h.convNew _
  | convOutline => exact h.convNew _
  | convEmboss => exact h.convNew _
  | convCustom =>
    obtain ⟨hside, hdiv, hcoef⟩ := hk rfl
    have hcoefs : t.coef = s.coef := funext fun j => by simp only [State.coef, hcoef]
    have hkernel : t.customKernel = s.customKernel := by simp only [State.customKernel, hside, hdiv, hcoefs]
    simp only [Machine.effectCells, hside, hkernel, h.convNew]
  | equalize =>
    simp only [Machine.effectCells, h.degenerate, h.pixels]
    refine congrArg (ite _ _) (List.flatMap_congr fun p hp => ?_)
    obtain ⟨hx, hy⟩ := State.mem_pixels.1 hp
    exact h.equalizedCells hx hy

end SameImage

/-- The same stores over memories that agree at an address leave them agreeing there. -/
theorem Memory.read_writeAll_congr (cs : List Host.Cell) {m m' : Memory} {a : Nat} (h : m.read a = m'.read a) :
    (m.writeAll cs).read a = (m'.writeAll cs).read a := by
  induction cs generalizing m m' with
  | nil => exact h
  | cons c cs ih => exact ih (by rw [Memory.read_write, Memory.read_write, h])

/-- Settles O15: both states hold the same image, so the command stores the same cells and builds the same tables. -/
theorem completionDependsOnlyOnItsReads : Obligations.CompletionDependsOnlyOnItsReads := by
  intro s s' t t' i hf hf' hcheck _ hw hh hfmt hread hk h h'
  obtain rfl := Host.Outcome.next.inj ((exec_complete hf).symm.trans h)
  obtain rfl := Host.Outcome.next.inj ((exec_complete hf').symm.trans h')
  have himg : SameImage s s' := ⟨hw.symm, hh.symm, hfmt.symm, fun a ha => by
    obtain ⟨b, hb, hb'⟩ := hread a ha
    rw [State.pix_of_read hb, State.pix_of_read hb']⟩
  have hcells : effectCells i s' = effectCells i s :=
    himg.effectCells (State.check_none hcheck).2 fun hi => by
      obtain ⟨hside, hdiv, hcoef⟩ := hk hi
      exact ⟨hside.symm, hdiv.symm, hcoef.symm⟩
  refine ⟨fun a ha => ?_, fun hi => ?_⟩
  · obtain ⟨b, hb, hb'⟩ := hread a ha
    rw [State.complete_mem, State.complete_mem, effectOf_mem, effectOf_mem, hcells]
    exact Memory.read_writeAll_congr _ (hb.trans hb'.symm)
  · subst hi
    simp only [State.complete_hist, State.complete_cdf, State.complete_lut, effectOf, State.equalize_hist,
      State.equalize_cdf, State.equalize_lut, himg.newHist, himg.newCdf, himg.newLut, himg.degenerate, true_and]
    cases s.degenerate with
    | true => exact .inr ⟨rfl, rfl⟩
    | false => exact .inl rfl

/-! ### Polling -/

theorem core_run_succ (M : Host.Core) {s t : M.State} (h : M.step s = .next t) (k : Nat) :
    M.run (k + 1) s = M.run k t := by
  rw [Host.Core.run, h]

/-- A run of the machine begins with a step. -/
theorem run_step {s t : State} (h : step s = .next t) (k : Nat) :
    Sys2Proof.core.run (k + 1) s = Sys2Proof.core.run k t := core_run_succ Sys2Proof.core h k

theorem sameConfig_trans {s t u : State} (h : sameConfig s t) (h' : sameConfig t u) : sameConfig s u := by
  unfold sameConfig at *
  simp_all

/-- One poll of `WAIT` while `BUSY` is 1 uses up the schedule's entry; the access stays pending, and configuration, `STATUS` and
the command in flight stay. -/
theorem step_wait_busy {s : State} {rest : List HostOp} (h : s.hostTurn) (hs : s.script = .wait :: rest)
    (hb : s.status.busy = true) :
    ∃ t, step s = .next t ∧ sameConfig s t ∧ t.status = s.status ∧ t.inFlight = s.inFlight ∧ t.script = s.script ∧
      t.turns = s.useTurn.turns := by
  have hstep : step s = .next
      { State.readReg { s.useTurn with script := rest } 0x004 with script := .wait :: rest } := by
    rw [step_host h hs, hostAccess, if_pos (by simpa using hb)]
  exact ⟨_, hstep, by simp [sameConfig], by simp, by simp, hs.symm, by simp⟩

/-- Settles O51, by induction on the schedule: an entry of the host's is one poll, any other end of it lets the engine move. -/
theorem polledCommandCompletes : Obligations.PolledCommandCompletes := by
  intro s i rest hf hb hs
  have engine : ∀ u : State, u.inFlight = some i → u.script = .wait :: rest → u.turns.head? ≠ some .host →
      ∃ t, step u = .next t ∧ t.inFlight = none ∧ t.status.word = 0x00000002 ∧ t.script = .wait :: rest ∧
        sameConfig u t := fun u hu hus ht => by
    obtain ⟨t, hstep, -, hword, hnone, hcfg, hscript, -⟩ :=
      completionIsOneStepEndingDone u i hu ⟨by simp [hu], .inr ht⟩
    exact ⟨t, hstep, hnone, hword, hscript.trans hus, hcfg⟩
  induction hturns : s.turns generalizing s with
  | nil =>
    obtain ⟨t, hstep, ht⟩ := engine s hf hs (by simp [hturns])
    exact ⟨1, t, Nat.le_refl _, run_step hstep 0, ht⟩
  | cons agent turns ih =>
    cases agent with
    | engine =>
      obtain ⟨t, hstep, ht⟩ := engine s hf hs (by simp [hturns])
      exact ⟨1, t, Nat.le_add_left _ _, run_step hstep 0, ht⟩
    | host =>
      obtain ⟨u, hpoll, hcfg, hstatus, hflight, hscript, hrest⟩ := step_wait_busy (.inr (by simp [hturns])) hs hb
      have hut : u.turns = turns := by simp [hrest, State.useTurn_turns, hf, hturns]
      obtain ⟨k, t, hk, hrun, hnone, hword, hts, hcfg'⟩ :=
        ih u (hflight.trans hf) (hstatus ▸ hb) (hscript.trans hs) hut
      exact ⟨k + 1, t, Nat.succ_le_succ (hut ▸ hk), (run_step hpoll k).trans hrun, hnone, hword, hts,
        sameConfig_trans hcfg hcfg'⟩

end Sys2Proof.Machine
end

section
/-! Running the script of a load (O59): the three register writes of `SETIMG`, then one `PixWrite` for each byte. -/

namespace Sys2Proof.Machine

theorem run_writeReg {s : State} {off : Nat} {v : Word} {rest : List HostOp} (h : s.ready) (h0 : off ≠ 0x000)
    (hoff : registerOffset off = true) (hs : s.script = .regWrite off v :: rest) (k : Nat) :
    Sys2Proof.core.run (k + 1) s = Sys2Proof.core.run k (State.writeReg { s with script := rest } off v) :=
  run_step (step_writeReg h hs h0 hoff) k

/-- `SETIMG` outside the busy window takes three steps and sets size and format (30_encoding.md R100). -/
theorem run_setImg {s : State} {w h f : Nat} {rest : List HostOp} (hr : s.ready) (hs : s.script = setImg w h f ++ rest)
    (k : Nat) :
    Sys2Proof.core.run (k + 3) s = Sys2Proof.core.run k
      { s with
        width := (BitVec.ofNat 32 w).setWidth 16, height := (BitVec.ofNat 32 h).setWidth 16
        fmt := (BitVec.ofNat 32 f).setWidth 1, script := rest } := by
  rw [run_writeReg hr (by decide) (by decide) hs, run_writeReg (by exact hr) (by decide) (by decide) rfl,
    run_writeReg (by exact hr) (by decide) (by decide) rfl]
  rfl

/-- Pixel writes below the capacity, outside the busy window, take one step each and are one store of their cells. -/
theorem run_pixWrites (cells : List Host.Cell) {s : State} {rest : List HostOp} (hr : s.ready)
    (hs : s.script = cells.map (fun c => HostOp.pixWrite c.1 c.2) ++ rest) (hbelow : ∀ c ∈ cells, c.1 < s.pixcap) :
    Sys2Proof.core.run cells.length s = .next { s with script := rest, mem := s.mem.writeAll cells } := by
  induction cells generalizing s with
  | nil => subst hs; rfl
  | cons c cells ih =>
    rw [List.length_cons, run_step (step_writePix hr hs (hbelow c List.mem_cons_self))]
    exact ih hr rfl fun d hd => hbelow d (List.mem_cons_of_mem _ hd)

/-- `LOADPIX` from address 0 is the pixel writes of the cells from 0. -/
theorem loadPix_eq_cells (bs : List Byte) :
    loadPix 0 bs = (cellsFrom 0 bs).map fun c => HostOp.pixWrite c.1 c.2 := by
  apply List.ext_getElem <;> simp [loadPix, cellsFrom]

theorem mem_cellsFrom {off : Nat} {bs : List Byte} {c : Host.Cell} :
    c ∈ cellsFrom off bs ↔ ∃ i, ∃ h : i < bs.length, (off + i, bs[i]) = c := List.mem_mapIdx

/-- Storing bytes from address 0: the bytes there, every other address as before. -/
theorem Memory.read_writeAll_cellsFrom (m : Memory) (bs : List Byte) (a : Nat) :
    (m.writeAll (cellsFrom 0 bs)).read a = if h : a < bs.length then some bs[a] else m.read a := by
  split
  case isTrue h =>
    refine Memory.read_writeAll_of_agree _ _ _ _ (mem_cellsFrom.2 ⟨a, h, by simp⟩) fun c hc hca => ?_
    obtain ⟨i, hi, rfl⟩ := mem_cellsFrom.1 hc
    obtain rfl : i = a := by simpa using hca
    rfl
  case isFalse h =>
    refine Memory.read_writeAll_other _ _ _ fun c hc hca => ?_
    obtain ⟨i, hi, rfl⟩ := mem_cellsFrom.1 hc
    simp only at hca
    omega

/-- The assigned bits of a dimension within the host's limit hold it whole (45_host_bmp_codec.md R216). -/
theorem toNat_setWidth_dimension {n : Nat} (h : n ≤ 65535) : ((BitVec.ofNat 32 n).setWidth 16).toNat = n := by
  rw [BitVec.toNat_setWidth, BitVec.toNat_ofNat]
  omega

/-- The code of a format in `FMT` is read back as the format (10_state.md R27). -/
theorem State.format_of_code {s : State} {F : Format} (h : s.fmt = (BitVec.ofNat 32 F.code).setWidth 1) :
    s.format = F := by
  rw [State.format, h]
  cases F <;> rfl

/-- Settles O59: `run_setImg`, then `run_pixWrites` on the image's bytes. -/
theorem loadScriptFillsPixelMemory : Obligations.LoadScriptFillsPixelMemory := by
  intro s img rest hr hs hwidth hheight hbytes
  have hlen : (cellsFrom 0 img.bytes).length = img.bytes.length := List.length_mapIdx
  rw [Loaded.script, loadPix_eq_cells, List.append_assoc] at hs
  have hbelow : ∀ c ∈ cellsFrom 0 img.bytes, c.1 < s.pixcap := fun c hc => by
    obtain ⟨i, hi, rfl⟩ := mem_cellsFrom.1 hc
    simp only
    omega
  have hrun := (run_setImg hr hs _).trans (run_pixWrites (cellsFrom 0 img.bytes) hr rfl hbelow)
  rw [hlen, Nat.add_comm] at hrun
  exact ⟨_, hrun, toNat_setWidth_dimension hwidth, toNat_setWidth_dimension hheight, State.format_of_code rfl,
    Memory.read_writeAll_cellsFrom _ _, rfl, ⟨rfl, rfl, rfl⟩, rfl, rfl, rfl⟩

end Sys2Proof.Machine
end

section
/-! Pixel accesses outside the busy window (O41, O42): the two accesses below `PIXCAP`, and their refusal from it on. -/

namespace Sys2Proof.Machine

/-- A read below the capacity answers the byte and uses up one free draw; nothing else changes. -/
theorem step_readPix {s : State} {a : Nat} {rest : List HostOp} (h : s.ready) (hs : s.script = .pixRead a :: rest)
    (ha : a < s.pixcap) :
    step s = .next { s with script := rest, answers := .pix a (s.pix a) :: s.answers, draws := s.draws + 1 } := by
  rw [step_ready h hs]
  exact (if_pos ha).trans (guarded_ready h)

/-- A pixel access outside the address space is refused. -/
theorem step_noSuchPixel {s : State} {a : Nat} {op : HostOp} {rest : List HostOp} (h : s.ready)
    (hs : s.script = op :: rest) (hop : op = .pixRead a ∨ ∃ b, op = .pixWrite a b) (ha : s.pixcap ≤ a) :
    step s = .refused (.noSuchPixel a) := by
  rw [step_ready h hs]
  obtain rfl | ⟨b, rfl⟩ := hop <;> exact if_neg ha.not_gt

/-- Settles O41: `step_writePix` is one write of `Memory.write`, which only the address written sees. -/
theorem pixelWriteStoresOneByte : Obligations.PixelWriteStoresOneByte := by
  intro s a b rest hr hs
  refine ⟨fun ha => ⟨_, step_writePix hr hs ha, ?_, fun a' hne => ?_, rfl⟩,
    step_noSuchPixel hr hs (.inr ⟨b, rfl⟩)⟩
  · exact s.mem.read_write_same a b
  · exact s.mem.read_write_other b hne

/-- Settles O42: the byte answered is `State.pix`, which is the stored byte wherever there is one. -/
theorem pixelReadAnswersTheByte : Obligations.PixelReadAnswersTheByte := by
  intro s a rest hr hs
  exact ⟨fun ha => ⟨s.pix a, fun _ => State.pix_of_read, step_readPix hr hs ha⟩,
    step_noSuchPixel hr hs (.inl rfl)⟩

end Sys2Proof.Machine
end

section
/-! The command word (30_encoding.md R90 to R96): its fields, the one inversion of the decoder, and from it that decoding
and encoding are inverse (O1, O2). -/

namespace Sys2Proof

/-! ### The fields of a word -/

@[simp] theorem Word.op_fieldsWord (imm : BitVec 16) (k o : BitVec 4) : Word.op (fieldsWord imm k o) = o :=
  BitVec.extractLsb'_append_eq_right

@[simp] theorem Word.ksel_fieldsWord (imm : BitVec 16) (k o : BitVec 4) : Word.ksel (fieldsWord imm k o) = k :=
  (BitVec.extractLsb'_append_eq_of_le (by decide)).trans BitVec.extractLsb'_append_eq_right

@[simp] theorem Word.rsv_fieldsWord (imm : BitVec 16) (k o : BitVec 4) : Word.rsv (fieldsWord imm k o) = 0 :=
  (BitVec.extractLsb'_append_eq_of_le (by decide)).trans <|
    (BitVec.extractLsb'_append_eq_of_le (by decide)).trans BitVec.extractLsb'_append_eq_right

@[simp] theorem Word.imm16_fieldsWord (imm : BitVec 16) (k o : BitVec 4) : Word.imm16 (fieldsWord imm k o) = imm :=
  (BitVec.extractLsb'_append_eq_of_le (by decide)).trans <|
    (BitVec.extractLsb'_append_eq_of_le (by decide)).trans BitVec.extractLsb'_append_eq_left

/-- A word with `RSV = 0` is made of its other three fields. -/
theorem fieldsWord_of_rsv_zero {w : Word} (h : Word.rsv w = 0) :
    fieldsWord (Word.imm16 w) (Word.ksel w) (Word.op w) = w := by
  have hsplit : Word.imm16 w ++ Word.rsv w ++ Word.ksel w ++ Word.op w = w := by
    simp only [Word.imm16, Word.rsv, Word.ksel, Word.op, BitVec.extractLsb'_append_extractLsb'_eq_extractLsb']
    exact BitVec.extractLsb'_eq_self
  rwa [h] at hsplit

/-! ### What the decoder answers -/

theorem decodePlain_eq_instr {i j : Instr} {w : Word} :
    decodePlain i w = .instr j ↔ Word.ksel w = 0 ∧ Word.imm16 w = 0 ∧ i = j := by
  unfold decodePlain
  split_ifs <;> simp_all

theorem decodeImmediate_eq_instr {mk : Int → Instr} {j : Instr} {w : Word} :
    decodeImmediate mk w = .instr j ↔ Word.ksel w = 0 ∧ mk (Word.imm16 w).toInt = j := by
  unfold decodeImmediate
  split_ifs <;> simp_all

theorem decodeConv_eq_instr {j : Instr} {w : Word} :
    decodeConv w = .instr j ↔ Word.imm16 w = 0 ∧ kernelOf (Word.ksel w).toNat = some j := by
  unfold decodeConv
  split_ifs
  · simp_all
  · split <;> simp_all

/-- The commands a word can decode to, by its fields (30_encoding.md R92). -/
theorem decode_eq_instr {w : Word} {j : Instr} :
    decode w = .instr j ↔ Word.rsv w = 0 ∧
      ((Word.op w = 1 ∧ Word.ksel w = 0 ∧ Word.imm16 w = 0 ∧ .neg = j) ∨
      (Word.op w = 2 ∧ Word.ksel w = 0 ∧ Word.imm16 w = 0 ∧ .gray = j) ∨
      (Word.op w = 3 ∧ Word.ksel w = 0 ∧ .bright (Word.imm16 w).toInt = j) ∨
      (Word.op w = 4 ∧ Word.ksel w = 0 ∧ .thresh (Word.imm16 w).toInt = j) ∨
      (Word.op w = 5 ∧ Word.imm16 w = 0 ∧ kernelOf (Word.ksel w).toNat = some j) ∨
      (Word.op w = 6 ∧ Word.ksel w = 0 ∧ Word.imm16 w = 0 ∧ .equalize = j)) := by
  have hop : ∀ n : BitVec 4, Word.op w = n ↔ (Word.op w).toNat = n.toNat := fun _ => BitVec.toNat_inj.symm
  unfold decode
  split_ifs with hrsv
  · exact ⟨nofun, fun h => absurd h.1 hrsv⟩
  · simp only [hop, not_not.1 hrsv]
    split
    case h_7 => simp_all
    all_goals
      rename_i h
      simp [h, decodePlain_eq_instr, decodeImmediate_eq_instr, decodeConv_eq_instr]

/-- The selected kernel's word has `KSEL` in its place (30_encoding.md R95). -/
theorem encode_kernelOf : ∀ k : BitVec 4, ∀ i ∈ kernelOf k.toNat,
    i.wellFormed = true ∧ encode i = fieldsWord 0 k 5 := by
  decide

theorem immInRange_iff {imm : Int} : immInRange imm = true ↔ -32768 ≤ imm ∧ imm ≤ 32767 := by
  simp [immInRange]

theorem immInRange_toInt (x : BitVec 16) : immInRange x.toInt = true :=
  immInRange_iff.2 ⟨x.le_toInt, Int.le_of_lt_add_one x.toInt_lt⟩

theorem toInt_ofInt_of_immInRange {imm : Int} (h : immInRange imm = true) : (BitVec.ofInt 16 imm).toInt = imm := by
  obtain ⟨hlow, hhigh⟩ := immInRange_iff.1 h
  exact BitVec.toInt_ofInt_eq_self (by decide) hlow (Int.lt_add_one_of_le hhigh)

/-- Settles O1: the fields of the encoding are those `decode_eq_instr` asks for. -/
theorem decodeEncodeReturnsTheCommand : Obligations.DecodeEncodeReturnsTheCommand := by
  intro i hi
  cases i with
  | bright imm => simp [decode_eq_instr, encode, toInt_ofInt_of_immInRange hi]
  | thresh imm => simp [decode_eq_instr, encode, toInt_ofInt_of_immInRange hi]
  | neg | gray | convBox | convGauss | convSharpen | convOutline | convEmboss | convCustom | equalize => decide

/-- Settles O2: a word with `RSV = 0` is made of its fields, and `decode_eq_instr` names the command's. -/
theorem encodeDecodeReturnsTheWord : Obligations.EncodeDecodeReturnsTheWord := by
  intro w i h
  obtain ⟨hrsv, hcases⟩ := decode_eq_instr.1 h
  rw [← fieldsWord_of_rsv_zero hrsv]
  obtain ⟨hop, hksel, himm, rfl⟩ | ⟨hop, hksel, himm, rfl⟩ | ⟨hop, hksel, rfl⟩ | ⟨hop, hksel, rfl⟩ |
    ⟨hop, himm, hkernel⟩ | ⟨hop, hksel, himm, rfl⟩ := hcases
  case inr.inr.inr.inr.inl =>
    rw [hop, himm]
    exact encode_kernelOf _ i hkernel
  case inr.inr.inl | inr.inr.inr.inl =>
    exact ⟨immInRange_toInt _, by rw [encode, hop, hksel, BitVec.ofInt_toInt]⟩
  all_goals exact ⟨rfl, by rw [hop, hksel, himm, encode]⟩

end Sys2Proof
end

section
/-! The legal words (30_encoding.md R92, R96, R97): their fields and their number (O4), the illegal ones and their rejection
(O5), the rows of the opcode table (O3), the listed words (O6). -/

namespace Sys2Proof

open Sys2Proof.Machine

theorem encode_injOn : Set.InjOn encode {i | i.wellFormed = true} := fun i hi j hj h =>
  Decoded.instr.inj <| (decodeEncodeReturnsTheCommand i hi).symm.trans <|
    (congrArg decode h).trans (decodeEncodeReturnsTheCommand j hj)

theorem decode_eq_instr_iff_encode {w : Word} {i : Instr} :
    decode w = .instr i ↔ i.wellFormed = true ∧ encode i = w :=
  ⟨encodeDecodeReturnsTheWord w i, fun ⟨hwf, h⟩ => h ▸ decodeEncodeReturnsTheCommand i hwf⟩

theorem legal_iff_decode {w : Word} : legal w = true ↔ ∃ i, decode w = .instr i := by
  unfold legal
  cases decode w <;> simp

theorem legal_eq_false_iff_decode {w : Word} : legal w = false ↔ ∃ why, decode w = .illegal why := by
  unfold legal
  cases decode w <;> simp

/-! ### By fields -/

theorem exists_kernelOf_eq_some {n : Nat} : (∃ i, kernelOf n = some i) ↔ n ≤ 5 := by
  match n with
  | 0 | 1 | 2 | 3 | 4 | 5 => simp [kernelOf]
  | n + 6 => simp [kernelOf]

/-- The three kinds of legal words (30_encoding.md R92). -/
theorem exists_decode_eq_instr {w : Word} :
    (∃ i, decode w = .instr i) ↔
      ((Word.op w = 1 ∨ Word.op w = 2 ∨ Word.op w = 6) ∧ Word.ksel w = 0 ∧ Word.rsv w = 0 ∧ Word.imm16 w = 0) ∨
      ((Word.op w = 3 ∨ Word.op w = 4) ∧ Word.ksel w = 0 ∧ Word.rsv w = 0) ∨
      (Word.op w = 5 ∧ (Word.ksel w).toNat ≤ 5 ∧ Word.rsv w = 0 ∧ Word.imm16 w = 0) := by
  simp only [decode_eq_instr, exists_and_left, exists_or, exists_eq', and_true, exists_kernelOf_eq_some]
  tauto

/-! ### By number -/

/-- The commands whose immediate, if they have one, is in `S`. -/
def commandsWith (S : Finset Int) : Finset Instr :=
  {.neg, .gray, .convBox, .convGauss, .convSharpen, .convOutline, .convEmboss, .convCustom, .equalize} ∪
    (S.image .bright ∪ S.image .thresh)

theorem mem_commandsWith {S : Finset Int} (hS : ∀ imm, imm ∈ S ↔ immInRange imm = true) {i : Instr} :
    i ∈ commandsWith S ↔ i.wellFormed = true := by
  cases i <;> simp [commandsWith, Instr.wellFormed, hS]

/-- Nine commands have no immediate, two have one. -/
theorem card_commandsWith (S : Finset Int) : (commandsWith S).card = 9 + (S.card + S.card) := by
  have himm : Disjoint (S.image Instr.bright) (S.image Instr.thresh) := by
    simp [Finset.disjoint_iff_ne]
  rw [commandsWith, Finset.card_union_of_disjoint (by simp), Finset.card_union_of_disjoint himm,
    Finset.card_image_of_injective S fun _ _ => Instr.bright.inj,
    Finset.card_image_of_injective S fun _ _ => Instr.thresh.inj]
  rfl

/-- The legal words are the encodings of the commands, given as the finite set `C`. -/
theorem legal_words_eq_image {C : Finset Instr} (hC : ∀ i, i ∈ C ↔ i.wellFormed = true) :
    (Finset.univ.filter fun n : Fin (2 ^ 32) => legal (BitVec.ofFin n) = true) = C.image fun i => (encode i).toFin := by
  ext n
  simp only [Finset.mem_filter, Finset.mem_univ, true_and, Finset.mem_image, hC, legal_iff_decode,
    decode_eq_instr_iff_encode]
  exact exists_congr fun i => and_congr_right fun _ => ⟨fun h => h ▸ rfl, fun h => h ▸ rfl⟩

/-- Settles O4: the fields by `exists_decode_eq_instr`; the words are counted as encodings, which are distinct. -/
theorem legalWordsByFieldAndCount : Obligations.LegalWordsByFieldAndCount := by
  have hC : ∀ i, i ∈ commandsWith (Finset.Icc (-32768) 32767) ↔ i.wellFormed = true := fun _ =>
    mem_commandsWith fun _ => Finset.mem_Icc.trans immInRange_iff.symm
  refine ⟨fun _ => exists_decode_eq_instr, ?_⟩
  rw [legal_words_eq_image hC, Finset.card_image_of_injOn, card_commandsWith, Int.card_Icc]
  · rfl
  · exact fun i hi j hj h => encode_injOn ((hC i).1 hi) ((hC j).1 hj) (BitVec.toFin_inj.1 h)

/-! ### The illegal words -/

/-- Settles O5: the reasons are the complement of the legal fields, and the rejection is O11's. -/
theorem illegalWordsAreRejectedWithCodeOne : Obligations.IllegalWordsAreRejectedWithCodeOne := by
  refine ⟨fun w => ?_, by decide, by decide, fun s w rest hr hs h => ?_⟩
  · rw [← Bool.not_eq_true, legal_iff_decode, exists_decode_eq_instr]
    simp only [Word.op, Word.ksel, Word.rsv, Word.imm16, ne_eq, ← BitVec.toNat_inj, BitVec.toNat_ofNat, Nat.reducePow,
      Nat.reduceMod, BitVec.ofNat_eq_ofNat]
    omega
  · obtain ⟨why, hd⟩ := legal_eq_false_iff_decode.1 h
    exact (issueStoresDecodesChecksAndAnswers s w rest hr hs).1 why hd

/-! ### The opcode table -/

/-- Every command's word lies in the row of its mnemonic. -/
theorem encode_in_row : ∀ i : Instr, Laws.EncodingRow.Statement i
  | .neg => Laws.EncodingRow.neg
  | .gray => Laws.EncodingRow.gray
  | .bright imm => Laws.EncodingRow.bright imm
  | .thresh imm => Laws.EncodingRow.thresh imm
  | .convBox => Laws.EncodingRow.convBox
  | .convGauss => Laws.EncodingRow.convGauss
  | .convSharpen => Laws.EncodingRow.convSharpen
  | .convOutline => Laws.EncodingRow.convOutline
  | .convEmboss => Laws.EncodingRow.convEmboss
  | .convCustom => Laws.EncodingRow.convCustom
  | .equalize => Laws.EncodingRow.equalize

theorem row_eq_of_mnemonic_eq {r q : OpcodeRow} (hr : r ∈ opcodeTable) (hq : q ∈ opcodeTable)
    (h : r.mnemonic = q.mnemonic) : r = q :=
  List.inj_on_of_nodup_map (f := OpcodeRow.mnemonic) (by decide) hr hq h

/-- The word of a row whose mask is full is the pattern. -/
theorem decode_of_holds_full {i : Instr} {p w : Word} {m : String} (hd : decode p = .instr i)
    (h : OpcodeRow.holds ⟨m, 0xFFFFFFFF, p⟩ w = true) : decode w = .instr i := by
  have hmask : w &&& 0xFFFFFFFF = w := BitVec.and_allOnes
  rw [OpcodeRow.holds, hmask, beq_iff_eq] at h
  rw [h, hd]

/-- A word of a row whose mask is the low half has the fields of the pattern there. -/
theorem fields_of_holds_lowHalf {p w : Word} {m : String} (h : OpcodeRow.holds ⟨m, 0x0000FFFF, p⟩ w = true) :
    Word.op w = Word.op p ∧ Word.ksel w = Word.ksel p ∧ Word.rsv w = Word.rsv p := by
  obtain rfl : w &&& 0x0000FFFF = p := by simpa [OpcodeRow.holds] using h
  simp only [Word.op, Word.ksel, Word.rsv, BitVec.extractLsb'_and]
  exact ⟨BitVec.and_allOnes.symm, BitVec.and_allOnes.symm, BitVec.and_allOnes.symm⟩

/-- A row of the table that matches decides the command's mnemonic. -/
theorem decode_of_holds {w : Word} :
    ∀ r ∈ opcodeTable, r.holds w = true → ∃ i, decode w = .instr i ∧ i.mnemonic = r.mnemonic := by
  have full : ∀ {p : Word} {m : String} (i : Instr), decode p = .instr i → i.mnemonic = m →
      OpcodeRow.holds ⟨m, 0xFFFFFFFF, p⟩ w = true → ∃ j, decode w = .instr j ∧ j.mnemonic = m :=
    fun i hd hm h => ⟨i, decode_of_holds_full hd h, hm⟩
  simp only [opcodeTable, List.forall_mem_cons]
  refine ⟨full .neg rfl rfl, full .gray rfl rfl, fun h => ?_, fun h => ?_, full .convBox rfl rfl,
    full .convGauss rfl rfl, full .convSharpen rfl rfl, full .convOutline rfl rfl, full .convEmboss rfl rfl,
    full .convCustom rfl rfl, full .equalize rfl rfl, nofun⟩
  · obtain ⟨hop, hksel, hrsv⟩ := fields_of_holds_lowHalf h
    exact ⟨.bright (Word.imm16 w).toInt, decode_eq_instr.2 ⟨hrsv, .inr (.inr (.inl ⟨hop, hksel, rfl⟩))⟩, rfl⟩
  · obtain ⟨hop, hksel, hrsv⟩ := fields_of_holds_lowHalf h
    exact ⟨.thresh (Word.imm16 w).toInt, decode_eq_instr.2 ⟨hrsv, .inr (.inr (.inr (.inl ⟨hop, hksel, rfl⟩)))⟩, rfl⟩

/-- The word of a command lies in a row of its mnemonic. -/
theorem exists_row_of_decode {w : Word} {i : Instr} (h : decode w = .instr i) :
    ∃ r ∈ opcodeTable, r.mnemonic = i.mnemonic ∧ r.holds w = true :=
  (decode_eq_instr_iff_encode.1 h).2 ▸ encode_in_row i

theorem holds_iff_decode {w : Word} {r : OpcodeRow} (hr : r ∈ opcodeTable) :
    r.holds w = true ↔ ∃ i, decode w = .instr i ∧ i.mnemonic = r.mnemonic := by
  refine ⟨decode_of_holds r hr, fun ⟨i, hd, hm⟩ => ?_⟩
  obtain ⟨q, hq, hqm, hholds⟩ := exists_row_of_decode hd
  rwa [row_eq_of_mnemonic_eq hr hq (hm.symm.trans hqm.symm)]

/-- The immediate of a decoded command is in the word's upper half. -/
theorem imm16_of_decode {w : Word} {imm : Int} (h : decode w = .instr (.bright imm) ∨ decode w = .instr (.thresh imm)) :
    immInRange imm = true ∧ BitVec.ofInt 16 imm = Word.imm16 w := by
  obtain ⟨hwf, rfl⟩ | ⟨hwf, rfl⟩ := h.imp decode_eq_instr_iff_encode.1 decode_eq_instr_iff_encode.1 <;>
    exact ⟨hwf, (Word.imm16_fieldsWord _ _ _).symm⟩

/-- Settles O3: a word's row and its command have the same mnemonic, and no two rows do. -/
theorem opcodeTableDecidesTheCommand : Obligations.OpcodeTableDecidesTheCommand := by
  refine fun w => ⟨fun r => holds_iff_decode, fun r hr q hq hrw hqw => ?_, fun hnone => ?_,
    fun imm h => (imm16_of_decode h).2⟩
  · obtain ⟨i, hi, hir⟩ := (holds_iff_decode hr).1 hrw
    obtain ⟨j, hj, hjq⟩ := (holds_iff_decode hq).1 hqw
    obtain rfl : i = j := Decoded.instr.inj (hi.symm.trans hj)
    exact row_eq_of_mnemonic_eq hr hq (hir.symm.trans hjq)
  · cases hd : decode w with
    | illegal why => exact ⟨why, rfl⟩
    | instr i =>
      obtain ⟨r, hr, -, hholds⟩ := exists_row_of_decode hd
      rw [hnone r hr] at hholds
      contradiction

/-- Settles O6: each word is closed, and the decoder computes. -/
theorem specWordsDecodeAsListed : Obligations.SpecWordsDecodeAsListed := by
  unfold Obligations.SpecWordsDecodeAsListed
  decide

end Sys2Proof
end

section
/-! The immediate (30_encoding.md R93): a signed value, which a host may saturate (O7). -/

namespace Sys2Proof.Machine

/-! ### Point operations whose result no longer depends on the parameter -/

theorem brightByte_of_ge {p : Int} (v : Byte) (h : 255 ≤ p) : brightByte p v = 255 := by
  have hv := byteVal_range v
  obtain heq | hgt : byteVal v + p = 255 ∨ 255 < byteVal v + p := by omega
  · rw [brightByte, heq]; rfl
  · rw [brightByte, clampByte, clamp_of_gt hgt]; rfl

theorem brightByte_of_le {p : Int} (v : Byte) (h : p ≤ -255) : brightByte p v = 0 := by
  have hv := byteVal_range v
  rw [brightByte, clampByte, clamp_of_nonpos (by omega)]
  rfl

theorem threshByte_of_nonpos {p : Int} (v : Byte) (h : p ≤ 0) : threshByte p v = 255 :=
  if_pos (h.trans (byteVal_range v).1)

theorem threshByte_of_ge {p : Int} (v : Byte) (h : 256 ≤ p) : threshByte p v = 0 := by
  have hv := byteVal_range v
  exact if_neg (by omega)

/-! ### Saturation -/

theorem clampImm_range (p : Int) : -32768 ≤ clampImm p ∧ clampImm p ≤ 32767 := by
  unfold clampImm; omega

theorem clampImm_of_mem {p : Int} (h0 : -32768 ≤ p) (h1 : p ≤ 32767) : clampImm p = p := by
  unfold clampImm; omega

theorem clampImm_of_lt {p : Int} (h : p < -32768) : clampImm p = -32768 := by
  unfold clampImm; omega

theorem clampImm_of_gt {p : Int} (h : 32767 < p) : clampImm p = 32767 := by
  unfold clampImm; omega

/-- Saturation changes no result: both point operations are constant beyond either bound. -/
theorem clampImm_changes_no_result (p : Int) (v : Byte) :
    brightByte (clampImm p) v = brightByte p v ∧ threshByte (clampImm p) v = threshByte p v := by
  obtain hlow | hhigh | ⟨h0, h1⟩ : p < -32768 ∨ 32767 < p ∨ (-32768 ≤ p ∧ p ≤ 32767) := by omega
  · rw [clampImm_of_lt hlow, brightByte_of_le v (p := p) (by omega), threshByte_of_nonpos v (p := p) (by omega)]
    exact ⟨brightByte_of_le v (by decide), threshByte_of_nonpos v (by decide)⟩
  · rw [clampImm_of_gt hhigh, brightByte_of_ge v (p := p) (by omega), threshByte_of_ge v (p := p) (by omega)]
    exact ⟨brightByte_of_ge v (by decide), threshByte_of_ge v (by decide)⟩
  · rw [clampImm_of_mem h0 h1]
    exact ⟨rfl, rfl⟩

/-- The immediate of a decoded command is the signed value of the word's upper half. -/
theorem imm_eq_toInt_of_decode {w : Word} {imm : Int}
    (h : decode w = .instr (.bright imm) ∨ decode w = .instr (.thresh imm)) : imm = (Word.imm16 w).toInt := by
  obtain ⟨hrange, himm⟩ := imm16_of_decode h
  rw [← himm, toInt_ofInt_of_immInRange hrange]

/-- Settles O7: the sign by `imm_eq_toInt_of_decode`, the saturation by the ranges of `clampImm` and of the two operations. -/
theorem immediateIsSignedAndSaturates : Obligations.ImmediateIsSignedAndSaturates := by
  refine ⟨fun w imm h => ⟨?_, immInRange_iff.1 (imm16_of_decode h).1⟩, fun p v => ?_⟩
  · rw [imm_eq_toInt_of_decode h, BitVec.toInt_eq_toNat_cond]
    unfold Word.imm16
    split_ifs <;> omega
  · obtain ⟨hlow, hhigh⟩ := clampImm_range p
    obtain ⟨hbright, hthresh⟩ := clampImm_changes_no_result p v
    exact ⟨hlow, hhigh, clampImm_of_mem, clampImm_of_lt, clampImm_of_gt, hbright, hthresh, brightByte_of_ge v,
      brightByte_of_le v, threshByte_of_nonpos v, threshByte_of_ge v⟩

end Sys2Proof.Machine
end

section
/-! `WAIT` (30_encoding.md R100, O44): one poll, whatever `STATUS` reads. -/

namespace Sys2Proof.Machine

/-- A poll reads `STATUS` and leaves `WAIT` pending while `BUSY` is 1. -/
theorem step_wait {s : State} {rest : List HostOp} (h : s.hostTurn) (hs : s.script = .wait :: rest) :
    step s = .next
      { State.readReg { s.useTurn with script := rest } 0x004 with
        script := if s.status.busy then .wait :: rest else rest } := by
  rw [step_host h hs, hostAccess]
  simp only [State.useTurn_status]
  split
  · rfl
  · exact congrArg _ (State.eq_with_script (by simp))

theorem State.regValue_status (s : State) : s.regValue 0x004 = s.status.word := rfl

/-- Settles O44: `step_wait`, and what a register read keeps. -/
theorem waitPollsUntilNotBusy : Obligations.WaitPollsUntilNotBusy := by
  intro s rest h hs
  exact ⟨_, step_wait h hs, by simp [State.regValue_status], rfl, by simp [State.readReg_windowOpen],
    by simp [sameConfig], by simp [sameTables], by simp, by simp, by simp⟩

end Sys2Proof.Machine
end

section
/-! The point operations (O16 to O20): what the completion of a command leaves, whatever else is in flight, the four operations on
one byte or one pixel, and the laws of 40_point_ops.md R127 as laws on bytes. -/

namespace Sys2Proof.Machine

/-! ### Completions -/

/-- A command in flight, of the right format and not `EQUALIZE`, completes with its effect on memory and its frame. -/
theorem exec_completes_with_frame {i : Instr} {s : State} (hf : s.inFlight = some i) (hi : i ≠ .equalize)
    (hfmt : wrongFormat i s.format = false) :
    ∃ t, exec i s = .next t ∧ completedFrom s t ∧ sameTables s t ∧ sameOutside s t ∧ t.mem = (effectOf i s).mem :=
  ⟨_, exec_complete hf, ⟨Status.word_values.2.2.1, rfl, by simp [sameConfig], by simp [sameHost]⟩,
    ⟨effectOf_hist i s hi, effectOf_cdf i s hi, effectOf_lut i s hi⟩, fun _ ha => effectOf_outside hfmt ha, rfl⟩

/-- The completion of a command that maps bytes: every byte of the active region is mapped. -/
theorem exec_mapBytes_completes {i : Instr} {s : State} {f : Byte → Byte} (hf : s.inFlight = some i) (hi : i ≠ .equalize)
    (hfmt : wrongFormat i s.format = false) (hmap : effectOf i = State.mapBytes f) :
    ∃ t, exec i s = .next t ∧ completedFrom s t ∧ sameTables s t ∧ sameOutside s t ∧
      ∀ a, a < s.nBytes → t.mem.read a = some (f (s.pix a)) := by
  obtain ⟨t, hexec, hdone, htables, houtside, hmem⟩ := exec_completes_with_frame hf hi hfmt
  exact ⟨t, hexec, hdone, htables, houtside, fun a ha => by rw [hmem, hmap, State.read_mapBytes, if_pos ha]⟩

theorem completes_iff {i : Instr} {s t : State} :
    completes i s t ↔ t = (effectOf i { s with inFlight := some i }).complete := by
  rw [completes, exec_complete rfl, Host.Outcome.next.injEq, eq_comm]

theorem nBytes_of_completes {i : Instr} {s t : State} (h : completes i s t) : t.nBytes = s.nBytes := by
  obtain rfl := completes_iff.1 h
  exact (State.geometry_congr (by simp) (by simp) (by simp)).2.2.2.1

theorem read_of_completes_mapBytes {i : Instr} {s t : State} {f : Byte → Byte} (hmap : effectOf i = State.mapBytes f)
    (h : completes i s t) {a : Nat} (ha : a < s.nBytes) : t.mem.read a = some (f (s.pix a)) := by
  obtain rfl := completes_iff.1 h
  rw [State.complete_mem, hmap, State.read_mapBytes, if_pos (by exact ha)]
  rfl

/-- Two commands that map bytes, one after the other, map every byte by the composition. -/
theorem read_of_completes_mapBytes_twice {i j : Instr} {s t u : State} {f g : Byte → Byte}
    (hf : effectOf i = State.mapBytes f) (hg : effectOf j = State.mapBytes g) (hst : completes i s t)
    (htu : completes j t u) {a : Nat} (ha : a < s.nBytes) : u.mem.read a = some (g (f (s.pix a))) := by
  rw [read_of_completes_mapBytes hg htu ((nBytes_of_completes hst).symm ▸ ha),
    State.pix_of_read (read_of_completes_mapBytes hf hst ha)]

/-! ### The operations on bytes and pixels -/

theorem negByte_eq_ofNat (v : Byte) : negByte v = BitVec.ofNat 8 (255 - v.toNat) := by
  unfold negByte; bv_omega

theorem negByte_negByte (v : Byte) : negByte (negByte v) = v := by
  unfold negByte; bv_omega

theorem grayPixel_channel (p : Rgb) (c : Nat) :
    (grayPixel p).channel c = BitVec.ofNat 8 ((p.r.toNat + p.g.toNat + p.b.toNat) / 3) := by
  have hmean : byteOf ((byteVal p.r + byteVal p.g + byteVal p.b) / 3)
      = BitVec.ofNat 8 ((p.r.toNat + p.g.toNat + p.b.toNat) / 3) := by
    rw [← BitVec.ofInt_natCast]
    push_cast
    rfl
  match c with
  | 0 => exact hmean
  | 1 => exact hmean
  | _ + 2 => exact hmean

/-- The mean of three equal channels is that channel. -/
theorem grayPixel_channel_of_uniform (v : Byte) (c : Nat) : (grayPixel ⟨v, v, v⟩).channel c = v := by
  rw [grayPixel_channel]; bv_omega

theorem clamp_eq_max_min (v : Int) : clamp v = max 0 (min 255 v) := by
  unfold clamp; omega

theorem byteVal_clampByte (v : Int) : byteVal (clampByte v) = clamp v := by
  have hrange : 0 ≤ clamp v ∧ clamp v ≤ 255 := by rw [clamp_eq_max_min]; omega
  rw [byteVal, clampByte, byteOf, BitVec.toNat_ofInt]
  omega

/-- Clamping between two additions of the same sign changes nothing: a first sum that leaves 0..255 is not brought back by the
second. -/
theorem clamp_clamp_add {x p q : Int} (hx : 0 ≤ x ∧ x ≤ 255) (hsign : (0 ≤ p ∧ 0 ≤ q) ∨ (p ≤ 0 ∧ q ≤ 0)) :
    clamp (clamp (x + p) + q) = clamp (x + (p + q)) := by
  simp only [clamp_eq_max_min]; omega

theorem brightByte_brightByte {p q : Int} (hsign : (0 ≤ p ∧ 0 ≤ q) ∨ (p ≤ 0 ∧ q ≤ 0)) (v : Byte) :
    brightByte q (brightByte p v) = brightByte (p + q) v := by
  rw [brightByte, brightByte, byteVal_clampByte, clampByte, clamp_clamp_add (byteVal_range v) hsign]
  rfl

theorem negByte_threshByte (imm : Int) (v : Byte) :
    negByte (threshByte imm v) = if imm ≤ (v.toNat : Int) then 0 else 255 := by
  rw [threshByte, apply_ite negByte]; rfl

/-! ### The four completions -/

/-- Settles O16: `NEG` maps every byte by `negByte`. -/
theorem negReplacesEveryByte : Obligations.NegReplacesEveryByte := by
  intro s hf
  simpa only [negByte_eq_ofNat] using exec_mapBytes_completes hf (by decide) rfl rfl

/-- Settles O17: `GRAY` maps every pixel by `grayPixel`, and its format is the right one. -/
theorem graySetsThreeChannelsToTheMean : Obligations.GraySetsThreeChannelsToTheMean := by
  intro s hf hfmt
  have hcolour : s.format = .rgb24 := State.format_eq_rgb24.2 (by simp [hfmt])
  obtain ⟨t, hexec, hdone, htables, houtside, hmem⟩ := exec_completes_with_frame hf (by decide) (by rw [hcolour]; rfl)
  refine ⟨t, hexec, hdone, htables, houtside, fun x y c hx hy hc => ?_⟩
  rw [hmem, effectOf, State.read_mapPixels hcolour grayPixel hx hy hc, grayPixel_channel]
  rfl

/-- Settles O18: `BRIGHT` maps every byte by `brightByte`. -/
theorem brightAddsAndClamps : Obligations.BrightAddsAndClamps := by
  intro s imm hf
  simpa only [brightByte, clampByte, byteOf, byteVal, clamp_eq_max_min] using
    exec_mapBytes_completes (f := brightByte imm) hf (by simp) rfl rfl

/-- Settles O19: `THRESH` maps every byte by `threshByte`, and its format is the right one. -/
theorem threshComparesInclusively : Obligations.ThreshComparesInclusively := by
  intro s imm hf hfmt
  have hgray : s.format = .gray8 := State.format_eq_gray8.2 hfmt
  exact exec_mapBytes_completes hf (by simp) (by rw [hgray]; rfl) rfl

/-! ### The laws -/

/-- `GRAY` writes the bytes of a uniform colour image as they are. -/
theorem State.read_mapPixels_gray_of_uniform {s : State} {v : Byte} (hcolour : s.format = .rgb24)
    (hv : ∀ a, a < s.nBytes → s.pix a = v) {a : Nat} (ha : a < s.nBytes) :
    (s.mapPixels grayPixel).mem.read a = some v := by
  obtain ⟨x, y, c, hx, hy, hc, rfl⟩ := State.exists_addr ha
  have hbpp := State.bpp_rgb24 hcolour
  have hchannel : ∀ k < 3, s.pix (s.addr x y k) = v := fun k hk => hv _ (State.addr_lt hx hy (hbpp.symm ▸ hk))
  have hrgb : s.rgb x y = ⟨v, v, v⟩ := by
    rw [State.rgb, hchannel 0 (by decide), hchannel 1 (by decide), hchannel 2 (by decide)]
  rw [State.read_mapPixels hcolour grayPixel hx hy (hbpp ▸ hc), hrgb, grayPixel_channel_of_uniform]

theorem pix_of_completes_gray_of_uniform {s t : State} {v : Byte} (hfmt : s.fmt = 1)
    (hv : ∀ a, a < s.nBytes → s.mem.read a = some v) (h : completes .gray s t) {a : Nat} (ha : a < s.nBytes) :
    t.pix a = v := by
  obtain rfl := completes_iff.1 h
  have hcolour : s.format = .rgb24 := State.format_eq_rgb24.2 (by simp [hfmt])
  exact State.pix_of_read (State.read_mapPixels_gray_of_uniform (s := { s with inFlight := some .gray }) hcolour
    (fun b hb => State.pix_of_read (hv b hb)) ha)

/-- Settles O20: each law is its law on bytes, carried to the image by the completions. -/
theorem pointOperationLaws : Obligations.PointOperationLaws := by
  refine ⟨fun s t u hst htu a ha => ?_, fun s t u v hfmt hv hst htu a ha => ?_,
    fun s t u r p q hsign hst htu hsr a ha => ?_, fun s t u imm hfmt hst htu a ha => ?_⟩
  · rw [read_of_completes_mapBytes_twice rfl rfl hst htu ha, negByte_negByte]
  · rw [read_of_completes_mapBytes rfl htu ((nBytes_of_completes hst).symm ▸ ha),
      pix_of_completes_gray_of_uniform hfmt hv hst ha, negByte_eq_ofNat]
  · rw [read_of_completes_mapBytes_twice rfl rfl hst htu ha, read_of_completes_mapBytes rfl hsr ha,
      brightByte_brightByte hsign, (clampImm_changes_no_result (p + q) _).1]
  · rw [read_of_completes_mapBytes_twice rfl rfl hst htu ha, negByte_threshByte]

end Sys2Proof.Machine
end

section
/-! The tap sum of a convolution (41_convolution.md R143, R144): where every tap is inside the image, and the two bounds on it
that the catalog and the uniform images need. -/

namespace Sys2Proof.Machine

/-! ### Taps -/

/-- A tap by the byte it reads: the pixel lies at column `q - half`, row `r - half` from the tap's own. -/
theorem State.tap_eq_near (s : State) (k : Kernel) (x y c r q : Nat) :
    s.tap k x y c r q =
      if k.half ≤ x + q ∧ x + q < s.imgW + k.half ∧ k.half ≤ y + r ∧ y + r < s.imgH + k.half then
        k.weight r q * s.near x y c ((q : Int) - k.half) ((r : Int) - k.half)
      else 0 := by
  rw [State.tap]
  exact if_congr (by omega) rfl rfl

/-- A pixel as far inside the image as the kernel reaches has every tap inside. -/
theorem State.tap_of_interior {s : State} {k : Kernel} (hside : k.side = 2 * k.half + 1) {x y c r q : Nat}
    (h : s.interior k.half x y) (hr : r < k.side) (hq : q < k.side) :
    s.tap k x y c r q = k.weight r q * s.near x y c ((q : Int) - k.half) ((r : Int) - k.half) := by
  obtain ⟨hx, hxw, hy, hyh⟩ := h
  rw [State.tap_eq_near, if_pos (by omega)]

theorem State.tapSum_eq_sum (s : State) (k : Kernel) (x y c : Nat) :
    s.tapSum k x y c = ∑ r ∈ Finset.range k.side, ∑ q ∈ Finset.range k.side, s.tap k x y c r q := rfl

/-- The nine taps of a kernel of side 3 by its coefficients, row by row. -/
theorem State.tapSum_of_side_three {s : State} {k : Kernel} {w00 w01 w02 w10 w11 w12 w20 w21 w22 : Int}
    (hside : k.side = 3) (hk : k.coeffs = [w00, w01, w02, w10, w11, w12, w20, w21, w22]) {x y : Nat}
    (h : s.interior 1 x y) (c : Nat) :
    s.tapSum k x y c =
      w00 * s.near x y c (-1) (-1) + w01 * s.near x y c 0 (-1) + w02 * s.near x y c 1 (-1)
      + (w10 * s.near x y c (-1) 0 + w11 * s.near x y c 0 0 + w12 * s.near x y c 1 0)
      + (w20 * s.near x y c (-1) 1 + w21 * s.near x y c 0 1 + w22 * s.near x y c 1 1) := by
  have hhalf : k.half = 1 := by rw [Kernel.half, hside]
  have htap : ∀ r < 3, ∀ q < 3,
      s.tap k x y c r q = k.weight r q * s.near x y c ((q : Int) - 1) ((r : Int) - 1) := fun r hr q hq => by
    rw [State.tap_of_interior (by omega) (hhalf ▸ h) (hside ▸ hr) (hside ▸ hq), hhalf]; rfl
  simp [State.tapSum_eq_sum, hside, Finset.sum_range_succ, htap, Kernel.weight, hk]

/-! ### The sum of the weights -/

/-- The sum of `K`, the numerator of the last column of 41_convolution.md R142. -/
def Kernel.weightSum (k : Kernel) : Int := ∑ r ∈ Finset.range k.side, ∑ q ∈ Finset.range k.side, k.weight r q

/-- Where a channel has one value and every tap is inside, the tap sum is that value times the sum of the weights. -/
theorem State.tapSum_of_uniform {s : State} {k : Kernel} (hside : k.side = 2 * k.half + 1) {x y c : Nat} {v : Byte}
    (h : s.interior k.half x y) (hv : ∀ x y, x < s.imgW → y < s.imgH → s.pix (s.addr x y c) = v) :
    s.tapSum k x y c = k.weightSum * byteVal v := by
  simp only [State.tapSum_eq_sum, Kernel.weightSum, Finset.sum_mul]
  refine Finset.sum_congr rfl fun r hr => Finset.sum_congr rfl fun q hq => ?_
  have hr := Finset.mem_range.1 hr
  have hq := Finset.mem_range.1 hq
  rw [State.tap_of_interior hside h hr hq]
  obtain ⟨hx, hxw, hy, hyh⟩ := h
  rw [State.near, hv _ _ (by omega) (by omega)]
  rfl

theorem Kernel.weight_nonneg {k : Kernel} (hk : ∀ w ∈ k.coeffs, 0 ≤ w) (r q : Nat) : 0 ≤ k.weight r q := by
  rw [Kernel.weight, List.getD_eq_getElem?_getD]
  cases h : k.coeffs[r * k.side + q]? with
  | none => exact le_rfl
  | some w => exact hk w (List.mem_of_getElem? h)

theorem State.near_range (s : State) (x y c : Nat) (dx dy : Int) : 0 ≤ s.near x y c dx dy ∧ s.near x y c dx dy ≤ 255 :=
  byteVal_range _

/-- A tap of nonnegative weight adds at most the weight times the largest byte. -/
theorem State.tap_range {k : Kernel} (hk : ∀ w ∈ k.coeffs, 0 ≤ w) (s : State) (x y c r q : Nat) :
    0 ≤ s.tap k x y c r q ∧ s.tap k x y c r q ≤ k.weight r q * 255 := by
  have hw := k.weight_nonneg hk r q
  obtain ⟨h0, h1⟩ := s.near_range x y c ((q : Int) - k.half) ((r : Int) - k.half)
  rw [State.tap_eq_near]
  split
  · exact ⟨mul_nonneg hw h0, mul_le_mul_of_nonneg_left h1 hw⟩
  · exact ⟨le_rfl, mul_nonneg hw (by decide)⟩

theorem State.tapSum_range {k : Kernel} (hk : ∀ w ∈ k.coeffs, 0 ≤ w) (s : State) (x y c : Nat) :
    0 ≤ s.tapSum k x y c ∧ s.tapSum k x y c ≤ k.weightSum * 255 := by
  simp only [State.tapSum_eq_sum, Kernel.weightSum, Finset.sum_mul]
  exact ⟨Finset.sum_nonneg fun r _ => Finset.sum_nonneg fun q _ => (s.tap_range hk x y c r q).1,
    Finset.sum_le_sum fun r _ => Finset.sum_le_sum fun q _ => (s.tap_range hk x y c r q).2⟩

/-! ### The new value of a byte (41_convolution.md R153) -/

theorem rhu_one (n : Int) : rhu n 1 = n := by
  unfold rhu; omega

/-- A quotient that is exact is not rounded. -/
theorem rhu_mul_self {d : Int} (hd : 0 < d) (v : Int) : rhu (d * v) d = v :=
  (rhu_eq_iff hd).2 ⟨by linarith, by linarith⟩

theorem rhu_le_of_le_mul {n d b : Int} (hd : 0 < d) (hn : n ≤ d * b) : rhu n d ≤ b := by
  have hlt : rhu n d < b + 1 := Int.ediv_lt_of_lt_mul (by omega) (by linarith)
  omega

theorem clampByte_byteVal (b : Byte) : clampByte (byteVal b) = b := by
  obtain ⟨h0, h1⟩ := byteVal_range b
  rw [clampByte, clamp_of_mem h0 h1, byteOf, byteVal, BitVec.ofInt_natCast, BitVec.ofNat_toNat, BitVec.setWidth_eq]

theorem State.convOut_eq_ofInt (s : State) (k : Kernel) (x y c : Nat) :
    s.convOut k x y c = BitVec.ofInt 8 (max 0 (min 255 (rhu (s.tapSum k x y c) k.div))) := by
  rw [← clamp_eq_max_min]; rfl

/-- With integer weights (`div = 1`) the tap sum is clamped and nothing is rounded. -/
theorem State.convOut_of_div_one {k : Kernel} (hdiv : k.div = 1) (s : State) (x y c : Nat) :
    s.convOut k x y c = BitVec.ofInt 8 (max 0 (min 255 (s.tapSum k x y c))) := by
  rw [State.convOut_eq_ofInt, hdiv, Nat.cast_one, rhu_one]

/-- The clamp never acts on a mean (41_convolution.md R147, R148, corner cases). -/
theorem State.convOut_of_mean {k : Kernel} (hk : ∀ w ∈ k.coeffs, 0 ≤ w) (hpos : 0 < k.div)
    (hsum : k.weightSum = k.div) (s : State) (x y c : Nat) :
    s.convOut k x y c = BitVec.ofInt 8 (rhu (s.tapSum k x y c) k.div) := by
  obtain ⟨h0, h1⟩ := s.tapSum_range hk x y c
  have hd : (0 : Int) < k.div := by exact_mod_cast hpos
  have hlow := rhu_nonneg hd h0
  have hhigh := rhu_le_of_le_mul hd (hsum ▸ h1)
  rw [State.convOut_eq_ofInt, min_eq_right hhigh, max_eq_right hlow]

end Sys2Proof.Machine
end

section
/-! The completions of the convolutions (O21 to O27): what a convolution in flight leaves, then each command's own kernel. -/

namespace Sys2Proof.Machine

/-! ### The completion of a convolution -/

/-- A convolution in flight completes: in the write region the new values, every other byte of the image as it was. -/
theorem exec_convolve_completes {i : Instr} {s : State} {k : Kernel} (hf : s.inFlight = some i) (hi : i ≠ .equalize)
    (hfmt : wrongFormat i s.format = false) (heff : effectOf i s = s.convolve k) :
    ∃ t, exec i s = .next t ∧ completedFrom s t ∧ sameTables s t ∧ sameOutside s t ∧
      ∀ x y c, s.inImage x y c →
        (s.inWriteRegion k x y → t.mem.read (s.addr x y c) = some (s.convOut k x y c)) ∧
        (¬ s.inWriteRegion k x y → t.mem.read (s.addr x y c) = s.mem.read (s.addr x y c)) := by
  obtain ⟨t, hexec, hdone, htables, houtside, hmem⟩ := exec_completes_with_frame hf hi hfmt
  refine ⟨t, hexec, hdone, htables, houtside, fun x y c hin => ?_⟩
  obtain ⟨hx, hy, hc⟩ := hin
  rw [hmem, heff]
  exact State.read_convolve hx hy hc

/-- A convolution in flight with a kernel of side 3 completes; `g` says the new values inside the one-pixel border. -/
theorem exec_convolve_side_three_completes {i : Instr} {s : State} {k : Kernel} {g : Nat → Nat → Nat → Byte}
    (hf : s.inFlight = some i) (hi : i ≠ .equalize) (hfmt : wrongFormat i s.format = false)
    (heff : effectOf i s = s.convolve k) (hside : k.side = 3)
    (hg : ∀ x y c, s.interior 1 x y → s.convOut k x y c = g x y c) :
    ∃ t, exec i s = .next t ∧ completedFrom s t ∧ sameTables s t ∧ sameOutside s t ∧
      ∀ x y c, s.inImage x y c →
        (s.interior 1 x y → t.mem.read (s.addr x y c) = some (g x y c)) ∧
        (¬ s.interior 1 x y → t.mem.read (s.addr x y c) = s.mem.read (s.addr x y c)) := by
  obtain ⟨t, hexec, hdone, htables, houtside, hmem⟩ := exec_convolve_completes hf hi hfmt heff
  have hhalf : k.half = 1 := by rw [Kernel.half, hside]
  simp only [State.inWriteRegion_iff_interior hhalf] at hmem
  exact ⟨t, hexec, hdone, htables, houtside, fun x y c hin =>
    ⟨fun h => hg x y c h ▸ (hmem x y c hin).1 h, (hmem x y c hin).2⟩⟩

/-! ### The catalog -/

/-- Settles O21: nine taps of weight 1, and a mean needs no clamp. -/
theorem boxAveragesNineBytes : Obligations.BoxAveragesNineBytes := by
  intro s hf
  refine exec_convolve_side_three_completes hf (by decide) rfl rfl rfl fun x y c h => ?_
  rw [State.convOut_of_mean (by decide) (by decide) (by decide), State.tapSum_of_side_three rfl rfl h]
  simp [boxKernel, rhu, add_assoc]

/-- Settles O22: nine taps of the weights over 16, and a mean needs no clamp. -/
theorem gaussWeighsNineBytes : Obligations.GaussWeighsNineBytes := by
  intro s hf
  refine exec_convolve_side_three_completes hf (by decide) rfl rfl rfl fun x y c h => ?_
  rw [State.convOut_of_mean (by decide) (by decide) (by decide), State.tapSum_of_side_three rfl rfl h]
  simp [gaussKernel, rhu, add_assoc]

/-- Settles O23: five taps with a weight, clamped. -/
theorem sharpenSubtractsFourNeighbours : Obligations.SharpenSubtractsFourNeighbours := by
  intro s hf
  refine exec_convolve_side_three_completes hf (by decide) rfl rfl rfl fun x y c h => ?_
  rw [State.convOut_of_div_one rfl, State.tapSum_of_side_three rfl rfl h]
  congr 3
  ring

/-- Settles O24: nine taps, clamped. -/
theorem outlineSubtractsEightNeighbours : Obligations.OutlineSubtractsEightNeighbours := by
  intro s hf
  refine exec_convolve_side_three_completes hf (by decide) rfl rfl rfl fun x y c h => ?_
  rw [State.convOut_of_div_one rfl, State.tapSum_of_side_three rfl rfl h]
  congr 3
  ring

/-- Settles O25: seven taps with a weight, clamped. -/
theorem embossWeighsAsPrinted : Obligations.EmbossWeighsAsPrinted := by
  intro s hf
  refine exec_convolve_side_three_completes hf (by decide) rfl rfl rfl fun x y c h => ?_
  rw [State.convOut_of_div_one rfl, State.tapSum_of_side_three rfl rfl h]
  congr 3
  ring

/-! ### The host-supplied kernel -/

theorem effectOf_custom_odd {s : State} (h : s.kside.toNat % 2 = 1) :
    effectOf .convCustom s = s.convolve s.customKernel := by
  simp [effectOf, State.convolveCustom, h]

theorem State.customKernel_side (s : State) : s.customKernel.side = s.kside.toNat := rfl

theorem State.customKernel_half {s : State} {half : Nat} (h : 2 * half + 1 = s.kside.toNat) :
    s.customKernel.half = half := by
  rw [Kernel.half, s.customKernel_side]; omega

/-- The weight at row `r`, column `q` is `KCOEF[r*KSIDE + q]` (41_convolution.md R152). -/
theorem State.customKernel_weight {s : State} {r q : Nat} (hr : r < s.kside.toNat) (hq : q < s.kside.toNat) :
    s.customKernel.weight r q = s.coef (r * s.kside.toNat + q) := by
  have hlt : r * s.kside.toNat + q < s.kside.toNat * s.kside.toNat := by nlinarith
  simp [Kernel.weight, State.customKernel, hlt]

theorem State.border_eq_ite (s : State) (k : Kernel) : s.border k = if s.fmt = 0 then k.half else 1 := by
  unfold State.border State.format
  split_ifs <;> rfl

/-- The tap sum of the host-supplied kernel, its weights read from `KCOEF`. -/
theorem State.tapSum_customKernel {s : State} {half : Nat} (h : 2 * half + 1 = s.kside.toNat) (x y c : Nat) :
    s.tapSum s.customKernel x y c =
      ∑ r ∈ Finset.range (2 * half + 1), ∑ q ∈ Finset.range (2 * half + 1),
        if half ≤ x + q ∧ x + q < s.imgW + half ∧ half ≤ y + r ∧ y + r < s.imgH + half then
          s.coef (r * (2 * half + 1) + q) * s.near x y c ((q : Int) - half) ((r : Int) - half)
        else 0 := by
  rw [State.tapSum_eq_sum, s.customKernel_side, h]
  refine Finset.sum_congr rfl fun r hr => Finset.sum_congr rfl fun q hq => ?_
  rw [State.tap_eq_near, State.customKernel_half h,
    State.customKernel_weight (Finset.mem_range.1 hr) (Finset.mem_range.1 hq)]

/-- Settles O26: the write region and the new values of the host-supplied kernel. -/
theorem customKernelConvolves : Obligations.CustomKernelConvolves := by
  intro s half b hf _ _ hside hb
  obtain ⟨t, hexec, hdone, htables, houtside, hmem⟩ :=
    exec_convolve_completes hf (by decide) rfl (effectOf_custom_odd (by omega))
  have hborder : s.border s.customKernel = b := by rw [State.border_eq_ite, State.customKernel_half hside, hb]
  simp only [State.inWriteRegion, hborder, State.convOut_eq_ofInt, State.tapSum_customKernel hside] at hmem
  exact ⟨t, hexec, hdone, htables, houtside, hmem⟩

/-- Settles O27: the effect of an even side is nothing. -/
theorem customEvenSideWritesNothing : Obligations.CustomEvenSideWritesNothing := by
  intro s hf hside
  have heven : s.kside.toNat % 2 = 0 := by obtain h | h | h | h := hside <;> rw [h] <;> rfl
  obtain ⟨t, hexec, hdone, htables, -, hmem⟩ := exec_completes_with_frame hf (by decide) rfl
  exact ⟨t, hexec, hdone, htables, fun a => by rw [hmem, effectOf_custom_even heven]⟩

end Sys2Proof.Machine
end

section
/-! The laws of the convolutions (41_convolution.md R154, O28): averaging kernels keep a uniform image, `CONV.OUTLINE` blackens it,
and nothing is written outside the write region. -/

namespace Sys2Proof.Machine

/-- What the completion of a command in flight leaves in memory. -/
theorem mem_of_exec {i : Instr} {s t : State} (hf : s.inFlight = some i) (h : exec i s = .next t) :
    t.mem = (effectOf i s).mem := by
  obtain rfl := Host.Outcome.next.inj ((exec_complete hf).symm.trans h)
  rfl

/-- A kernel with a centre whose weights, divided, sum to 1. -/
structure Kernel.Averages (k : Kernel) : Prop where
  odd : k.side = 2 * k.half + 1
  div_pos : 0 < k.div
  weightSum_eq : k.weightSum = k.div

/-- An averaging kernel that reaches no further than the border leaves a uniform image as it is. -/
theorem State.read_convolve_of_uniform {s : State} {k : Kernel} {u : Nat → Byte} (hk : k.Averages)
    (hreach : k.half ≤ s.border k) (hu : ∀ x y c, s.inImage x y c → s.mem.read (s.addr x y c) = some (u c))
    {x y c : Nat} (hin : s.inImage x y c) : (s.convolve k).mem.read (s.addr x y c) = some (u c) := by
  have hin' := hin
  obtain ⟨hx, hy, hc⟩ := hin'
  by_cases hwrite : s.inWriteRegion k x y
  · have hinterior : s.interior k.half x y := by
      obtain ⟨h1, h2, h3, h4⟩ := hwrite
      exact ⟨by omega, by omega, by omega, by omega⟩
    have hsum : s.tapSum k x y c = k.div * byteVal (u c) := by
      rw [State.tapSum_of_uniform hk.odd hinterior fun x y hx hy => State.pix_of_read (hu x y c ⟨hx, hy, hc⟩),
        hk.weightSum_eq]
    rw [(State.read_convolve hx hy hc).1 hwrite, State.convOut, hsum,
      rhu_mul_self (by exact_mod_cast hk.div_pos), clampByte_byteVal]
  · rw [(State.read_convolve hx hy hc).2 hwrite, hu x y c hin]

/-- A double sum over the rows of a square is one sum in row order. -/
theorem sum_range_rows (f : Nat → Int) (m n : Nat) :
    ∑ r ∈ Finset.range m, ∑ q ∈ Finset.range n, f (r * n + q) = ∑ j ∈ Finset.range (m * n), f j := by
  induction m with
  | zero => simp
  | succ m ih => rw [Finset.sum_range_succ, ih, Nat.succ_mul, Finset.sum_range_add]

theorem State.customKernel_weightSum (s : State) :
    s.customKernel.weightSum = ∑ n ∈ Finset.range (s.kside.toNat * s.kside.toNat), s.coef n := by
  rw [← sum_range_rows]
  exact Finset.sum_congr rfl fun r hr => Finset.sum_congr rfl fun q hq =>
    State.customKernel_weight (Finset.mem_range.1 hr) (Finset.mem_range.1 hq)

/-- The catalog but for `CONV.OUTLINE` averages (41_convolution.md R142, last column). -/
theorem effectOf_catalog_averages {i : Instr} (hi : i ∈ catalog) (hne : i ≠ .convOutline) :
    ∃ k : Kernel, k.Averages ∧ k.half = 1 ∧ effectOf i = State.convolve k := by
  simp only [catalog, List.mem_cons, List.not_mem_nil, or_false] at hi
  obtain rfl | rfl | rfl | rfl | rfl := hi
  · exact ⟨boxKernel, ⟨rfl, by decide, by decide⟩, rfl, rfl⟩
  · exact ⟨gaussKernel, ⟨rfl, by decide, by decide⟩, rfl, rfl⟩
  · exact ⟨sharpenKernel, ⟨rfl, by decide, by decide⟩, rfl, rfl⟩
  · exact absurd rfl hne
  · exact ⟨embossKernel, ⟨rfl, by decide, by decide⟩, rfl, rfl⟩

/-- A host-supplied kernel of odd side whose coefficients sum to a nonzero divisor averages. -/
theorem State.customKernel_averages {s : State} (hodd : s.kside.toNat % 2 = 1) (hdiv : s.kdiv ≠ 0)
    (hsum : ∑ n ∈ Finset.range (s.kside.toNat * s.kside.toNat), s.coef n = (s.kdiv.toNat : Int)) :
    s.customKernel.Averages where
  odd := by rw [Kernel.half, s.customKernel_side]; omega
  div_pos := Nat.pos_of_ne_zero fun h => hdiv (BitVec.eq_of_toNat_eq h)
  weightSum_eq := s.customKernel_weightSum.trans hsum

/-- On sides 1 and 3, and for `GRAY8` on every side, a kernel reaches no further than the border. -/
theorem State.half_le_border {s : State} {k : Kernel} (h : k.half ≤ 1 ∨ s.fmt = 0) : k.half ≤ s.border k := by
  rw [State.border_eq_ite]
  split
  case isTrue => exact le_rfl
  case isFalse hcolour => exact h.resolve_right hcolour

/-- Inside the border of a uniform image `CONV.OUTLINE` writes 0: its weights sum to 0. -/
theorem State.convOut_outline_of_uniform {s : State} {x y c : Nat} {v : Byte} (h : s.interior 1 x y)
    (hv : ∀ x y, x < s.imgW → y < s.imgH → s.pix (s.addr x y c) = v) : s.convOut outlineKernel x y c = 0 := by
  have hzero : outlineKernel.weightSum = 0 := by decide
  rw [State.convOut_of_div_one rfl, State.tapSum_of_uniform rfl h hv, hzero, zero_mul]
  rfl

/-- A convolution with an empty write region stores nothing. -/
theorem State.read_convolve_of_small {s : State} {k : Kernel} (hk : k.half = 1) (h : s.imgW < 3 ∨ s.imgH < 3) (a : Nat) :
    (s.convolve k).mem.read a = s.mem.read a := by
  refine Memory.read_writeAll_other _ _ _ fun d hd => ?_
  obtain ⟨x, y, c, -, -, hwrite, -⟩ := (State.mem_convNew d).1 hd
  obtain ⟨h1, h2, h3, h4⟩ := (State.inWriteRegion_iff_interior hk).1 hwrite
  omega

/-- Settles O28: nothing is written outside the write region, averaging kernels keep a uniform image, the weights of `OUTLINE` sum
to 0, and an image lower or narrower than 3 has no interior. -/
theorem convolutionLaws : Obligations.ConvolutionLaws := by
  refine ⟨fun s t i hi hf h x y c hin hring => ?_, fun s t i u hu hi hf h x y c hin => ?_,
    fun s t u hu hf h x y c hin hinterior => ?_, fun s t i hi hsmall hf h a => ?_⟩
  · obtain ⟨k, hk, heff⟩ := effectOf_catalog hi
    obtain ⟨hx, hy, hc⟩ := hin
    rw [mem_of_exec hf h, heff]
    refine (State.read_convolve hx hy hc).2 fun hwrite => ?_
    obtain ⟨h1, h2, h3, h4⟩ := (State.inWriteRegion_iff_interior hk).1 hwrite
    omega
  · rw [mem_of_exec hf h]
    obtain ⟨hcat, hne⟩ | ⟨rfl, hside, hdiv, hsum⟩ := hi
    · obtain ⟨k, havg, hhalf, heff⟩ := effectOf_catalog_averages hcat hne
      rw [heff]
      exact State.read_convolve_of_uniform havg (State.half_le_border (.inl hhalf.le)) hu hin
    · have hodd : s.kside.toNat % 2 = 1 := by obtain h | h | ⟨h, -⟩ := hside <;> rw [h] <;> rfl
      have hreach : s.customKernel.half ≤ 1 ∨ s.fmt = 0 := by
        rw [Kernel.half, s.customKernel_side]
        obtain h | h | ⟨-, hgray⟩ := hside
        · exact .inl (by rw [h]; decide)
        · exact .inl (by rw [h]; decide)
        · exact .inr hgray
      rw [effectOf_custom_odd hodd]
      exact State.read_convolve_of_uniform (State.customKernel_averages hodd hdiv hsum) (State.half_le_border hreach) hu hin
  · obtain ⟨hx, hy, hc⟩ := hin
    rw [mem_of_exec hf h, effectOf,
      (State.read_convolve hx hy hc).1 ((State.inWriteRegion_iff_interior rfl).2 hinterior),
      State.convOut_outline_of_uniform hinterior fun x y hx hy => State.pix_of_read (hu x y c ⟨hx, hy, hc⟩)]
  · obtain ⟨k, hk, heff⟩ := effectOf_catalog hi
    rw [mem_of_exec hf h, heff, State.read_convolve_of_small hk hsmall]

end Sys2Proof.Machine
end

section
/-! The counts of `EQUALIZE` (42_equalize.md R171): the intensity of a pixel written out, how many pixels have one and how many
have at most it, the darkest intensity present, and where the command is degenerate. -/

namespace Sys2Proof.Machine

/-! ### The intensity of a pixel -/

theorem roundedLuma_eq (p : Rgb) :
    roundedLuma p = (29900 * p.r.toNat + 58700 * p.g.toNat + 11400 * p.b.toNat + 50000) / 100000 := by
  simp only [roundedLuma, forward, byteVal]
  omega

theorem State.intensity_eq_brightness (s : State) (x y : Nat) : s.intensity x y = s.brightness x y := by
  rw [State.intensity, State.brightness, State.format]
  by_cases hf : s.fmt = 0
  · simp only [hf, if_true]
  · simp only [hf, if_false, roundedLuma_eq, State.rgb]

theorem State.brightness_lt (s : State) (x y : Nat) : s.brightness x y < 256 :=
  s.intensity_eq_brightness x y ▸ s.intensity_lt x y

/-! ### The pixels as a list and as a set -/

theorem coords_nodup (w h : Nat) : (coords w h).Nodup := by
  refine List.nodup_flatMap.2 ⟨fun y _ => List.nodup_range.map fun a b hab => congrArg Prod.fst hab, ?_⟩
  refine List.nodup_range.imp fun {y z} hyz p hy hz => ?_
  obtain ⟨_, -, rfl⟩ := List.mem_map.1 hy
  obtain ⟨_, -, hp⟩ := List.mem_map.1 hz
  exact hyz (congrArg Prod.snd hp).symm

theorem State.pixels_nodup (s : State) : s.pixels.Nodup := coords_nodup _ _

theorem State.pixels_toFinset (s : State) : s.pixels.toFinset = s.pixelSet := by
  ext ⟨x, y⟩
  rw [List.mem_toFinset, State.mem_pixels, State.pixelSet, Finset.mem_product, Finset.mem_range, Finset.mem_range]

/-- Counting in the list of pixels is counting in their set. -/
theorem State.pixels_countP (s : State) (P : Nat × Nat → Prop) [DecidablePred P] :
    s.pixels.countP (fun p => decide (P p)) = (s.pixelSet.filter P).card := by
  rw [List.countP_eq_length_filter, ← List.toFinset_card_of_nodup (s.pixels_nodup.filter _), List.toFinset_filter,
    s.pixels_toFinset]
  simp only [decide_eq_true_eq]

theorem State.card_pixelSet (s : State) : s.pixelSet.card = s.nPix := by
  rw [State.pixelSet, Finset.card_product, Finset.card_range, Finset.card_range, State.nPix]

/-- Two 16-bit dimensions have a 32-bit product (10_state.md R34). -/
theorem State.nPix_lt (s : State) : s.nPix < 2 ^ 32 := by
  have h : s.imgW * s.imgH < 2 ^ 16 * 2 ^ 16 := Nat.mul_lt_mul'' s.width.isLt s.height.isLt
  rwa [← pow_add] at h

/-! ### The counts -/

theorem State.countUpTo_zero (s : State) : s.countUpTo 0 = s.countAt 0 := by
  simp only [State.countUpTo, State.countAt, Nat.le_zero]

theorem State.countUpTo_succ (s : State) (i : Nat) : s.countUpTo (i + 1) = s.countUpTo i + s.countAt (i + 1) := by
  rw [State.countUpTo, State.countUpTo, State.countAt, ← Finset.card_union_of_disjoint, ← Finset.filter_or]
  · simp only [Nat.le_succ_iff]
  · exact Finset.disjoint_filter.2 fun p _ hle heq => by omega

theorem State.countUpTo_mono (s : State) {i j : Nat} (h : i ≤ j) : s.countUpTo i ≤ s.countUpTo j :=
  Finset.card_le_card (Finset.monotone_filter_right _ fun _ _ hp => hp.trans h)

theorem State.countUpTo_le_nPix (s : State) (i : Nat) : s.countUpTo i ≤ s.nPix :=
  s.card_pixelSet ▸ Finset.card_filter_le _ _

theorem State.countAt_le_nPix (s : State) (i : Nat) : s.countAt i ≤ s.nPix :=
  s.card_pixelSet ▸ Finset.card_filter_le _ _

/-- From the brightest intensity upward every pixel is counted. -/
theorem State.countUpTo_eq_nPix {s : State} {i : Nat} (h : ∀ p ∈ s.pixelSet, s.brightness p.1 p.2 ≤ i) :
    s.countUpTo i = s.nPix := by
  rw [State.countUpTo, Finset.filter_true_of_mem h, s.card_pixelSet]

theorem State.newHist_getD (s : State) {i : Nat} (h : i < 256) : s.newHist.getD i 0 = s.countAt i := by
  rw [State.newHist, histogram_getD _ h, State.intensities, List.count_eq_countP, List.countP_map, State.countAt,
    ← State.pixels_countP]
  refine List.countP_congr fun p _ => ?_
  simp [State.intensity_eq_brightness]

theorem State.newCdf_getD_eq_countUpTo (s : State) {i : Nat} (h : i < 256) : s.newCdf.getD i 0 = s.countUpTo i := by
  have hlen : s.newHist.length = 256 := histogram_length _
  induction i with
  | zero =>
    rw [State.newCdf, cumulate_getD 0 _ (by omega), s.countUpTo_zero, ← s.newHist_getD h]
    simp [List.take_one, List.getD_eq_getElem?_getD, List.head?_eq_getElem?, hlen]
  | succ i ih =>
    rw [s.countUpTo_succ, ← ih (by omega), ← s.newHist_getD h]
    exact cumulate_succ _ (by omega)

/-! ### The registers `HIST` and `CDF` -/

theorem State.equalize_hist_toNat (s : State) {i : Nat} (h : i < 256) : s.equalize.hist[i].toNat = s.countAt i := by
  simp only [State.equalize_hist, wordTable_getElem, s.newHist_getD h]
  exact Nat.mod_eq_of_lt ((s.countAt_le_nPix i).trans_lt s.nPix_lt)

theorem State.equalize_cdf_toNat (s : State) {i : Nat} (h : i < 256) : s.equalize.cdf[i].toNat = s.countUpTo i := by
  simp only [State.equalize_cdf, wordTable_getElem, s.newCdf_getD_eq_countUpTo h]
  exact Nat.mod_eq_of_lt ((s.countUpTo_le_nPix i).trans_lt s.nPix_lt)

/-! ### The darkest intensity present -/

theorem State.exists_darkest {s : State} (h : s.pixelSet.Nonempty) : ∃ d, s.darkest d := by
  obtain ⟨p, hp, hmin⟩ := Finset.exists_min_image s.pixelSet (fun p => s.brightness p.1 p.2) h
  exact ⟨_, ⟨p, hp, rfl⟩, hmin⟩

namespace State.darkest

variable {s : State} {d : Nat} (h : s.darkest d)
include h

theorem lt : d < 256 := by
  obtain ⟨p, -, rfl⟩ := h.1
  exact s.brightness_lt _ _

theorem countUpTo_eq_zero {i : Nat} (hi : i < d) : s.countUpTo i = 0 :=
  Finset.card_eq_zero.2 (Finset.filter_eq_empty_iff.2 fun p hp => by have := h.2 p hp; omega)

theorem countUpTo_self : s.countUpTo d = s.countAt d :=
  congrArg Finset.card (Finset.filter_congr fun p hp => by have := h.2 p hp; omega)

theorem countAt_pos : 0 < s.countAt d := by
  obtain ⟨p, hp, hd⟩ := h.1
  exact Finset.card_pos.2 ⟨p, Finset.mem_filter.2 ⟨hp, hd⟩⟩

/-- The smallest nonzero entry of the new `CDF` is the count of the darkest intensity. -/
theorem cdfMin_eq : s.cdfMin = s.countAt d := by
  have hlen := s.newCdf_length
  have hget : ∀ (i : Nat) (hi : i < s.newCdf.length), s.newCdf[i] = s.countUpTo i := fun i hi => by
    rw [← s.newCdf_getD_eq_countUpTo (hlen ▸ hi), List.getD_eq_getElem _ _ hi]
  have hfind : s.newCdf.find? (fun c => decide (0 < c)) = some (s.countAt d) :=
    List.find?_eq_some_iff_getElem.2 ⟨by simpa using h.countAt_pos, d, hlen ▸ h.lt,
      (hget d _).trans h.countUpTo_self, fun j hj => by simp [hget, h.countUpTo_eq_zero hj]⟩
  rw [State.cdfMin, hfind, Option.getD_some]

/-- Two intensities are present exactly when the darkest is not the only one. -/
theorem twoIntensities_iff : s.twoIntensities ↔ s.countAt d < s.nPix := by
  have hall : s.countAt d = s.nPix ↔ ∀ p ∈ s.pixelSet, s.brightness p.1 p.2 = d := by
    rw [← s.card_pixelSet]; exact Finset.card_filter_eq_iff
  rw [lt_iff_le_and_ne, and_iff_right (s.countAt_le_nPix d), Ne, hall]
  constructor
  · rintro ⟨p, hp, q, hq, hne⟩ hd
    exact hne ((hd p hp).trans (hd q hq).symm)
  · intro hd
    obtain ⟨p, hp, hpd⟩ := h.1
    by_contra htwo
    exact hd fun q hq => by_contra fun hne => htwo ⟨q, hq, p, hp, hpd ▸ hne⟩

end State.darkest

/-- `EQUALIZE` is degenerate exactly on the images without two intensities (42_equalize.md R175). -/
theorem State.degenerate_iff (s : State) : s.degenerate = true ↔ ¬ s.twoIntensities := by
  rw [State.degenerate, Bool.or_eq_true, beq_iff_eq, beq_iff_eq, s.cdfTotal_eq]
  rcases s.pixelSet.eq_empty_or_nonempty with hempty | hne
  · have hzero : s.nPix = 0 := by rw [← s.card_pixelSet, hempty, Finset.card_empty]
    simp [State.twoIntensities, hempty, hzero]
  · obtain ⟨d, hd⟩ := State.exists_darkest hne
    have hpos := hd.countAt_pos
    have hle := s.countAt_le_nPix d
    rw [hd.twoIntensities_iff, hd.cdfMin_eq]
    omega

theorem State.not_degenerate {s : State} (h : s.twoIntensities) : s.degenerate = false :=
  Bool.eq_false_iff.2 fun hdeg => s.degenerate_iff.1 hdeg h

end Sys2Proof.Machine
end

section
/-! The colour-space transform (42_equalize.md R173, R174; O35, O36): its ranges, and that it keeps gray pixels gray. -/

namespace Sys2Proof.Machine

/-- Settles O35: every value is linear in the bytes, so its extremes are at the bytes' 0 and 255; the rounding is a
floor quotient. -/
theorem colourTransformStaysInRange : Obligations.ColourTransformStaysInRange := by
  intro p
  have hr := byteVal_range p.r
  have hg := byteVal_range p.g
  have hb := byteVal_range p.b
  simp only [roundedLuma, forward, abs_lt]
  refine ⟨by omega, by omega, by omega, by omega, by omega, by omega, fun ym => ?_⟩
  have hm := byteVal_range ym
  rw [byteVal] at hm
  omega

/-- A deviation of less than half a unit is rounded away. -/
theorem rhu_mul_add {d e : Int} (v : Int) (hlow : -d ≤ 2 * e) (hhigh : 2 * e < d) : rhu (v * d + e) d = v :=
  (rhu_eq_iff (by omega)).2 ⟨by linarith, by linarith⟩

theorem forward_gray (v : Byte) : forward ⟨v, v, v⟩ = ⟨100000 * byteVal v, byteVal v, 0⟩ := by
  simp only [forward, Yuv.mk.injEq]
  omega

theorem inverse_gray (v ym : Byte) : inverse ym (byteVal v) 0 = ⟨ym, ym, ym⟩ := by
  obtain ⟨hv0, hv1⟩ := byteVal_range v
  simp only [inverse, mul_zero, sub_zero, chromaScale]
  rw [rhu_mul_add _ (by decide) (by decide), sub_eq_add_neg, rhu_mul_add _ (by omega) (by omega),
    rhu_mul_add _ (by omega) (by omega), clampByte_byteVal]

/-- Settles O36: the two transforms of a gray pixel. -/
theorem grayPixelsStayGray : Obligations.GrayPixelsStayGray := by
  intro v ym
  have hluma : roundedLuma ⟨v, v, v⟩ = v.toNat := by rw [roundedLuma_eq]; dsimp only; omega
  rw [forward_gray]
  exact ⟨rfl, hluma, rfl, rfl, inverse_gray v ym⟩

end Sys2Proof.Machine
end

section
/-! The completion of `EQUALIZE` (42_equalize.md; O29 to O34): the tables it leaves, the new look-up table, and the mapped
image. -/

namespace Sys2Proof.Machine

/-! ### The completion -/

/-- A command in flight of the right format completes with its frame, and with the tables and memory of its effect. -/
theorem exec_completes_with_effect {i : Instr} {s : State} (hf : s.inFlight = some i)
    (hfmt : wrongFormat i s.format = false) :
    ∃ t, exec i s = .next t ∧ completedFrom s t ∧ sameOutside s t ∧ sameTables (effectOf i s) t ∧
      t.mem = (effectOf i s).mem :=
  ⟨_, exec_complete hf, ⟨Status.word_values.2.2.1, rfl, by simp [sameConfig], by simp [sameHost]⟩,
    fun _ ha => effectOf_outside hfmt ha, ⟨rfl, rfl, rfl⟩, rfl⟩

theorem exec_equalize_completes {s : State} (hf : s.inFlight = some .equalize) :
    ∃ t, exec .equalize s = .next t ∧ completedFrom s t ∧ sameOutside s t ∧ sameTables s.equalize t ∧
      t.mem = s.equalize.mem :=
  exec_completes_with_effect hf rfl

/-- Settles O29: the registers hold the counts, and the counts of the intensities up to one add up. -/
theorem equalizeCountsIntensities : Obligations.EqualizeCountsIntensities := by
  intro s hf
  obtain ⟨t, hexec, hdone, houtside, ⟨hhist, hcdf, -⟩, -⟩ := exec_equalize_completes hf
  refine ⟨t, hexec, hdone, houtside, ?_⟩
  simp only [hhist, hcdf]
  refine ⟨fun i h => ⟨s.equalize_hist_toNat h, s.equalize_cdf_toNat h⟩, ?_, fun i h => ?_, ?_, fun d h hd => ⟨?_, ?_, ?_⟩⟩
  · rw [s.equalize_cdf_toNat (by decide), s.equalize_hist_toNat (by decide), s.countUpTo_zero]
  · rw [s.equalize_cdf_toNat h, s.equalize_cdf_toNat (by omega), s.equalize_hist_toNat h, s.countUpTo_succ]
  · rw [s.equalize_cdf_toNat (by decide)]
    exact State.countUpTo_eq_nPix fun p _ => Nat.le_of_lt_succ (s.brightness_lt _ _)
  · exact BitVec.eq_of_toNat_eq (by rw [s.equalize_cdf_toNat h, s.equalize_hist_toNat h, hd.countUpTo_self])
  · rw [s.equalize_hist_toNat h]
    exact hd.countAt_pos
  · intro i hi
    rw [s.equalize_cdf_toNat (by omega), hd.countUpTo_eq_zero hi]

/-- Settles O33: the effect of a degenerate command is the write of `HIST` and `CDF`. -/
theorem equalizeDegenerateLeavesImageAndLut : Obligations.EqualizeDegenerateLeavesImageAndLut := by
  intro s hf hone
  obtain ⟨t, hexec, hdone, -, ⟨hhist, hcdf, hlut⟩, hmem⟩ := exec_equalize_completes hf
  have heff := State.equalize_degenerate (s.degenerate_iff.2 hone)
  refine ⟨t, hexec, hdone, ?_, fun a => ?_, fun i h => ?_⟩
  · rw [hlut, heff, State.setHistCdf_lut]
  · rw [hmem, heff, State.setHistCdf_mem]
  · simp only [hhist, hcdf]
    exact ⟨s.equalize_hist_toNat h, s.equalize_cdf_toNat h⟩

/-! ### The look-up table (42_equalize.md R172) -/

theorem State.equalize_lut_getElem {s : State} (htwo : s.twoIntensities) {i : Nat} (h : i < 256) :
    s.equalize.lut[i] = s.newLut i := by
  simp only [State.equalize_lut, State.not_degenerate htwo, Bool.false_eq_true, if_false, byteTable_getElem]

/-- An entry of the new table by the counts. -/
theorem State.darkest.newLut_eq {s : State} {d i : Nat} (hd : s.darkest d) (h : i < 256) :
    s.newLut i = if s.countUpTo i = 0 then 0
      else byteOf (rhu (255 * ((s.countUpTo i : Int) - s.countAt d)) ((s.nPix : Int) - s.countAt d)) := by
  rw [State.newLut, s.newCdf_getD_eq_countUpTo h, hd.cdfMin_eq, s.cdfTotal_eq]
  simp only [Nat.pos_iff_ne_zero, ite_not]

/-- Settles O30: each entry of the register is the entry of the new table. -/
theorem equalizeBuildsTheLut : Obligations.EqualizeBuildsTheLut := by
  intro s d hf htwo hd
  obtain ⟨t, hexec, hdone, houtside, ⟨-, -, hlut⟩, -⟩ := exec_equalize_completes hf
  refine ⟨t, hexec, hdone, houtside, fun i h => ?_⟩
  simp only [hlut, State.equalize_lut_getElem htwo h, hd.newLut_eq h]
  rfl

/-! ### The new table rises from 0 to 255 (42_equalize.md R178 (4)) -/

theorem rhu_zero {d : Int} (hd : 0 < d) : rhu 0 d = 0 := by
  simpa using rhu_mul_self hd 0

theorem rhu_mono {m n d : Int} (hd : 0 < d) (h : m ≤ n) : rhu m d ≤ rhu n d :=
  Int.ediv_le_ediv (by omega) (by omega)

theorem byteVal_byteOf {v : Int} (h0 : 0 ≤ v) (h1 : v ≤ 255) : byteVal (byteOf v) = v := by
  rw [byteVal, byteOf, BitVec.toNat_ofInt]
  omega

theorem byteVal_inj {b c : Byte} (h : byteVal b = byteVal c) : b = c :=
  BitVec.eq_of_toNat_eq (Int.ofNat.inj h)

namespace State.darkest

variable {s : State} {d : Nat} (hd : s.darkest d)
include hd

theorem range_pos (htwo : s.twoIntensities) : 0 < (s.nPix : Int) - s.countAt d := by
  have := hd.twoIntensities_iff.1 htwo
  omega

theorem newLut_of_lt {i : Nat} (hi : i < d) : s.newLut i = 0 := by
  have hlt := hd.lt
  rw [hd.newLut_eq (by omega), if_pos (hd.countUpTo_eq_zero hi)]

/-- From the darkest intensity upward an entry is the rounded quotient, which is a byte. -/
theorem byteVal_newLut (htwo : s.twoIntensities) {i : Nat} (hi : d ≤ i) (h : i < 256) :
    byteVal (s.newLut i) = rhu (255 * ((s.countUpTo i : Int) - s.countAt d)) ((s.nPix : Int) - s.countAt d) := by
  have hrange := hd.range_pos htwo
  have hlow : s.countAt d ≤ s.countUpTo i := hd.countUpTo_self ▸ s.countUpTo_mono hi
  have hhigh := s.countUpTo_le_nPix i
  have hpos := hd.countAt_pos
  rw [hd.newLut_eq h, if_neg (by omega)]
  exact byteVal_byteOf (rhu_nonneg hrange (by omega)) (rhu_le_of_le_mul hrange (by omega))

/-- The darkest intensity present maps to 0. -/
theorem newLut_self (htwo : s.twoIntensities) : s.newLut d = 0 := by
  refine byteVal_inj ?_
  rw [hd.byteVal_newLut htwo le_rfl hd.lt, hd.countUpTo_self, sub_self, mul_zero, rhu_zero (hd.range_pos htwo)]
  rfl

/-- The intensities from the brightest upward map to 255. -/
theorem newLut_of_brightest {b i : Nat} (htwo : s.twoIntensities) (hb : s.brightest b) (hi : b ≤ i) (h : i < 256) :
    s.newLut i = 255 := by
  have hdb : d ≤ b := by
    obtain ⟨p, hp, rfl⟩ := hb.1
    exact hd.2 p hp
  refine byteVal_inj ?_
  rw [hd.byteVal_newLut htwo (hdb.trans hi) h, State.countUpTo_eq_nPix fun p hp => (hb.2 p hp).trans hi, mul_comm,
    rhu_mul_self (hd.range_pos htwo)]
  rfl

theorem newLut_mono (htwo : s.twoIntensities) {i j : Nat} (hij : i ≤ j) (hj : j < 256) :
    byteVal (s.newLut i) ≤ byteVal (s.newLut j) := by
  obtain hlt | hge := lt_or_ge i d
  · rw [hd.newLut_of_lt hlt]
    exact (byteVal_range _).1
  · have hrange := hd.range_pos htwo
    have hcount := s.countUpTo_mono hij
    rw [hd.byteVal_newLut htwo hge (by omega), hd.byteVal_newLut htwo (hge.trans hij) hj]
    exact rhu_mono hrange (by omega)

end State.darkest

/-- Settles O34: the register holds the new table, and that one rises from 0 to 255. -/
theorem equalizeSpreadsDarkestToBrightest : Obligations.EqualizeSpreadsDarkestToBrightest := by
  intro s t d b hf htwo hd hb hexec
  obtain ⟨u, hu, -, -, ⟨-, -, hlut⟩, -⟩ := exec_equalize_completes hf
  obtain rfl := Host.Outcome.next.inj (hu.symm.trans hexec)
  simp only [hlut]
  refine ⟨fun i j hi hj hij => ?_, fun i hi hle => ?_, fun i hi hge => ?_⟩
  · rw [State.equalize_lut_getElem htwo hi, State.equalize_lut_getElem htwo hj]
    exact Int.ofNat_le.1 (hd.newLut_mono htwo hij hj)
  · rw [State.equalize_lut_getElem htwo hi]
    obtain rfl | hlt := hle.eq_or_lt
    · exact hd.newLut_self htwo
    · exact hd.newLut_of_lt hlt
  · rw [State.equalize_lut_getElem htwo hi, hd.newLut_of_brightest htwo hb hge hi]

/-! ### The mapped image (42_equalize.md R176, R177) -/

/-- The table's entry for an intensity present, as the port looks it up. -/
theorem State.equalize_lut_brightness {s : State} (htwo : s.twoIntensities) (x y : Nat) :
    s.equalize.lut[s.brightness x y]? = some (s.newLut (s.brightness x y)) := by
  have h := s.brightness_lt x y
  rw [Vector.getElem?_eq_getElem h, State.equalize_lut_getElem htwo h]

/-- Settles O31: in `GRAY8` every byte is a pixel, and its intensity is the byte. -/
theorem equalizeMapsGrayBytes : Obligations.EqualizeMapsGrayBytes := by
  intro s hf hfmt htwo
  obtain ⟨t, hexec, hdone, houtside, ⟨-, -, hlut⟩, hmem⟩ := exec_equalize_completes hf
  refine ⟨t, hexec, hdone, houtside, fun a ha => ?_⟩
  have hgray := State.format_eq_gray8.2 hfmt
  obtain ⟨x, y, c, hx, hy, hc, rfl⟩ := State.exists_addr ha
  obtain rfl : c = 0 := by rw [State.bpp_gray8 hgray] at hc; omega
  have hpix : s.brightness x y = (s.pix (s.addr x y 0)).toNat := by rw [State.brightness, if_pos hfmt]
  refine ⟨s.newLut (s.brightness x y), ?_, ?_⟩
  · rw [← hpix, hlut, State.equalize_lut_brightness htwo]
  · rw [hmem, State.read_equalize (State.not_degenerate htwo) hx hy hc, State.equalizedByte, hgray,
      s.intensity_eq_brightness]

theorem State.near_self (s : State) (x y c : Nat) : s.near x y c 0 0 = byteVal (s.pix (s.addr x y c)) := by
  simp [State.near, byteVal]

theorem clampByte_rhu (n d : Int) : clampByte (rhu n d) = BitVec.ofInt 8 (max 0 (min 255 ((2 * n + d) / (2 * d)))) := by
  rw [clampByte, clamp_eq_max_min]; rfl

/-- What a command that is not degenerate leaves in a channel of a colour pixel. -/
theorem State.read_equalize_colour {s : State} (htwo : s.twoIntensities) (hcolour : s.format = .rgb24) {x y c : Nat}
    (hx : x < s.imgW) (hy : y < s.imgH) (hc : c < 3) :
    s.equalize.mem.read (s.addr x y c) =
      some ((inverse (s.newLut (s.brightness x y)) (forward (s.rgb x y)).u5 (forward (s.rgb x y)).v5).channel c) := by
  rw [State.read_equalize (State.not_degenerate htwo) hx hy (State.bpp_rgb24 hcolour ▸ hc), State.equalizedByte, hcolour,
    s.intensity_eq_brightness]

/-- Settles O32: the three channels of the inverse transform, and `LUT[Yr]` for the luminance. -/
theorem equalizeMapsColourPixels : Obligations.EqualizeMapsColourPixels := by
  intro s hf hfmt htwo
  obtain ⟨t, hexec, hdone, houtside, ⟨-, -, hlut⟩, hmem⟩ := exec_equalize_completes hf
  refine ⟨t, hexec, hdone, houtside, fun x y r g b u5 v5 e hx hy hr hg hb hu hv he => ?_⟩
  have hcolour : s.format = .rgb24 := State.format_eq_rgb24.2 (by simp [hfmt])
  have hu5 : (forward (s.rgb x y)).u5 = u5 := by rw [hu, hr, hg, hb]; simp only [State.near_self]; rfl
  have hv5 : (forward (s.rgb x y)).v5 = v5 := by rw [hv, hr, hg, hb]; simp only [State.near_self]; rfl
  have hread : ∀ c < 3, t.mem.read (s.addr x y c) =
      some ((inverse (s.newLut (s.brightness x y)) u5 v5).channel c) := fun c hc => by
    rw [hmem, State.read_equalize_colour htwo hcolour hx hy hc, hu5, hv5]
  obtain rfl : e = chromaScale := he
  refine ⟨_, hlut ▸ State.equalize_lut_brightness htwo x y, ?_, ?_, ?_⟩
  · rw [hread 0 (by decide), ← clampByte_rhu]; rfl
  · rw [hread 1 (by decide), ← clampByte_rhu]; rfl
  · rw [hread 2 (by decide), ← clampByte_rhu]; rfl

end Sys2Proof.Machine
end

section
/-! A load that fails (45_host_bmp_codec.md R213; O60): whatever part of its accesses it has made, each is a step that changes the
dimensions, the format and pixel memory only. -/

namespace Sys2Proof.Machine

/-- One access of a load, the image's registers and pixel memory written out as what it can change. -/
theorem step_loadAccess {s : State} {op : HostOp} {rest : List HostOp} (hr : s.ready) (hs : s.script = op :: rest)
    (hop : loadAccess s.pixcap op = true) :
    ∃ w h fm m, step s = .next { s with width := w, height := h, fmt := fm, mem := m, script := rest } := by
  obtain ⟨t, ht, hframe⟩ := hostAccess_loadAccess (s := { s with script := rest }) hr hop
  exact ⟨_, _, _, _, (step_ready hr hs).trans (ht.trans (congrArg _ hframe))⟩

/-- Accesses that a load may make take one step each outside the busy window. -/
theorem run_loadAccesses (ops : List HostOp) {s : State} {rest : List HostOp} (hr : s.ready)
    (hs : s.script = ops ++ rest) (hops : ∀ op ∈ ops, loadAccess s.pixcap op = true) :
    ∃ w h fm m, Sys2Proof.core.run ops.length s =
      .next { s with width := w, height := h, fmt := fm, mem := m, script := rest } := by
  induction ops generalizing s with
  | nil => exact ⟨_, _, _, _, congrArg _ (State.eq_with_script hs)⟩
  | cons op ops ih =>
    obtain ⟨w, h, fm, m, hstep⟩ := step_loadAccess hr hs (hops op List.mem_cons_self)
    rw [List.length_cons, run_step hstep]
    exact ih hr rfl fun op' hop' => hops op' (List.mem_cons_of_mem _ hop')

theorem Session.load_of_ok {cap : Nat} {file : Option (List Byte)} {img : Loaded} (h : loadFile cap file = .ok img)
    (ss : Session) (part : List HostOp) :
    ss.load cap file part = ⟨⟨some ⟨img.width, img.height, img.md⟩⟩, img.script, none⟩ := by
  rw [Session.load, h]

theorem Session.load_of_error {cap : Nat} {file : Option (List Byte)} {e : CodecError} (h : loadFile cap file = .error e)
    (ss : Session) (part : List HostOp) :
    ss.load cap file part = ⟨Session.empty, part.filter (loadAccess cap), some (.codec e)⟩ := by
  rw [Session.load, h]

/-- Settles O60: the outcome of the load decides what the session holds, and `run_loadAccesses` runs what a failed load wrote. -/
theorem sessionHoldsTheLoadedImage : Obligations.SessionHoldsTheLoadedImage := by
  refine ⟨fun ss cap file part img hok => ?_, fun ss cap file part e herr => ?_, fun _ => ⟨rfl, rfl⟩,
    fun ss i dest pix hnone => ?_⟩
  · rw [Session.load_of_ok hok]
    exact ⟨rfl, rfl, rfl⟩
  · rw [Session.load_of_error herr]
    refine ⟨rfl, rfl, fun s rest hr hcap hs => ?_⟩
    obtain ⟨w, h, fm, m, hrun⟩ := run_loadAccesses _ hr hs fun op hop => hcap ▸ (List.mem_filter.1 hop).2
    exact ⟨_, hrun, rfl⟩
  · obtain ⟨_⟩ := ss
    subst hnone
    exact ⟨Session.onImage_none _, Session.onImage_none _, Session.onImage_none _, Session.onImage_none _⟩

end Sys2Proof.Machine
end

section
/-! A load followed by a save (45_host_bmp_codec.md R214; O57, O58): what the save writes are cells of the file loaded. -/

namespace Sys2Proof.Machine

/-! ### Header fields -/

theorem fileByte_of_lt {f : List Byte} {off : Nat} (h : off < f.length) : fileByte f off = f[off] := by
  simp [fileByte, h]

theorem fileByte_take {f : List Byte} {n i : Nat} (h : i < n) : fileByte (f.take n) i = fileByte f i := by
  simp [fileByte, List.getElem?_take_of_lt h]

/-- A field inside the first `n` bytes of a file is read from those bytes alone. -/
theorem leField_take {f : List Byte} {n off k : Nat} (h : off + k ≤ n) :
    leField (f.take n) off k = leField f off k := by
  induction k with
  | zero => rfl
  | succ k ih => rw [leField, leField, ih (by omega), fileByte_take (by omega)]

/-! ### The cells of a file -/

/-- The `n` bytes of a file from an offset on, each with its offset. -/
def fileCells (f : List Byte) (off n : Nat) : List Host.Cell := cellsFrom off ((f.drop off).take n)

theorem mem_fileCells {f : List Byte} {off n : Nat} {c : Host.Cell} :
    c ∈ fileCells f off n ↔ off ≤ c.1 ∧ c.1 < off + n ∧ f[c.1]? = some c.2 := by
  obtain ⟨a, b⟩ := c
  simp only [fileCells, mem_cellsFrom, Prod.mk.injEq, List.getElem_take, List.getElem_drop, List.length_take,
    List.length_drop, List.getElem?_eq_some_iff]
  constructor
  · rintro ⟨i, hi, rfl, rfl⟩
    exact ⟨by omega, by omega, by omega, rfl⟩
  · rintro ⟨hoff, hn, ha, rfl⟩
    exact ⟨a - off, by omega, by omega, by simp [Nat.add_sub_cancel' hoff]⟩

theorem cellsFrom_append (off : Nat) (bs cs : List Byte) :
    cellsFrom off (bs ++ cs) = cellsFrom off bs ++ cellsFrom (off + bs.length) cs := by
  simp [cellsFrom, List.mapIdx_append, Nat.add_comm, Nat.add_left_comm]

theorem fileCells_append {f : List Byte} {off m : Nat} (n : Nat) (h : off + m ≤ f.length) :
    fileCells f off m ++ fileCells f (off + m) n = fileCells f off (m + n) := by
  have hlen : ((f.drop off).take m).length = m := by simp; omega
  rw [fileCells, fileCells, fileCells, List.take_add, cellsFrom_append, hlen, List.drop_drop]

/-! ### Grayscale -/

/-- What a grayscale load that succeeds has checked and what it answers (45_host_bmp_codec.md R208). -/
theorem loadGray_ok {cap : Nat} {f : List Byte} {img : Loaded} (h : loadGray cap f = .ok img) :
    grayBase + fileDataSize f ≤ f.length ∧
      img = ⟨(fileWidth f).toNat, (fileHeight f).toNat, .gray8, (f.drop grayBase).take (fileDataSize f),
        .gray (f.take 54) ((f.drop 54).take 1024)⟩ := by
  unfold loadGray at h
  split_ifs at h with hhead hdepth hlen hlimits
  exact ⟨by omega, (Except.ok.inj h).symm⟩

/-- The bytes of a list read by their indices. -/
theorem map_range_getD (bs : List Byte) : ((List.range bs.length).map fun i => bs.getD i 0) = bs :=
  List.ext_getElem (by simp) (by simp +contextual)

/-- Settles O58: header, palette and buffer are consecutive cells of the file. -/
theorem grayFileRoundTrip : Obligations.GrayFileRoundTrip := by
  intro cap f img hload
  obtain ⟨hlen, rfl⟩ := loadGray_ok hload
  simp only [grayBase] at hlen
  have hsize : fileDataSize (f.take 54) = ((f.drop grayBase).take (fileDataSize f)).length := by
    rw [fileDataSize, leField_take (by decide)]
    simp only [grayBase, List.length_take, List.length_drop, fileDataSize] at hlen ⊢
    omega
  rw [saveCells, hsize, map_range_getD]
  calc fileCells f 0 54 ++ fileCells f 54 1024 ++ fileCells f grayBase (fileDataSize f)
      = fileCells f 0 1078 ++ fileCells f 1078 (fileDataSize f) := by
        rw [← fileCells_append (off := 0) (m := 54) 1024 (by omega)]; rfl
    _ = fileCells f 0 (1078 + fileDataSize f) := fileCells_append _ (by omega)
    _ = (f.take (1078 + fileDataSize f)).mapIdx fun i b => (i, b) := by simp [fileCells, cellsFrom]

/-! ### Colour -/

/-- What a colour load that succeeds has checked and what it answers (45_host_bmp_codec.md R207). -/
theorem loadColor_ok {cap : Nat} {f : List Byte} {img : Loaded} (h : loadColor cap f = .ok img) :
    (img.width * img.height * 3 = 0 ∨ filePixelBase f + img.width * img.height * 3 ≤ f.length) ∧
      img.bytes = colorBytes f (filePixelBase f) img.width img.height ∧
      img.md = .color (f.take 14) ((f.drop 14).take 40) := by
  unfold loadColor at h
  split_ifs at h with hhead htag hdepth hlimits hfits
  cases h
  exact ⟨hfits, rfl, rfl⟩

/-- The entries of a list made of blocks of one length. -/
theorem getElem?_flatMap_of_length {α β : Type} {g : α → List β} {k : Nat} (hg : ∀ a, (g a).length = k) (l : List α)
    (i : Nat) {j : Nat} (hj : j < k) : (l.flatMap g)[i * k + j]? = l[i]?.bind fun a => (g a)[j]? := by
  induction l generalizing i with
  | nil => simp
  | cons a l ih =>
    rw [List.flatMap_cons]
    cases i with
    | zero => rw [List.getElem?_append_left (by rw [hg]; omega)]; simp
    | succ i =>
      have hstep : (i + 1) * k + j - (g a).length = i * k + j := by rw [hg, Nat.succ_mul]; omega
      rw [List.getElem?_append_right (by rw [hg, Nat.succ_mul]; omega), hstep, ih, List.getElem?_cons_succ]

/-- Pixels are listed row by row (20_memory.md R62). -/
theorem getElem?_coords {w h x y : Nat} (hx : x < w) (hy : y < h) : (coords w h)[y * w + x]? = some (x, y) := by
  rw [coords, getElem?_flatMap_of_length (by simp) _ _ hx]
  simp [hx, hy]

/-- A loaded byte is the byte of its pixel in the file, the three channels in reverse order (45_host_bmp_codec.md R207). -/
theorem colorBytes_getD {f : List Byte} {base w h x y c : Nat} (hx : x < w) (hy : y < h) (hc : c < 3) :
    (colorBytes f base w h).getD ((y * w + x) * 3 + c) 0 = fileByte f (colorOffset base w h x y + (2 - c)) := by
  rw [List.getD_eq_getElem?_getD, colorBytes, getElem?_flatMap_of_length (k := 3) (fun _ => rfl) _ _ hc,
    getElem?_coords hx hy]
  obtain rfl | rfl | rfl : c = 0 ∨ c = 1 ∨ c = 2 := by omega
  all_goals rfl

/-- Every pixel lies in the pixel data. -/
theorem colorOffset_add_le {w h x y : Nat} (base : Nat) (hx : x < w) (hy : y < h) :
    colorOffset base w h x y + 3 ≤ base + w * h * 3 := by
  have hrow : (h - 1 - y + 1) * w ≤ h * w := Nat.mul_le_mul_right w (by omega)
  rw [Nat.succ_mul] at hrow
  rw [colorOffset, Nat.mul_comm w h]
  omega

/-- Every byte of the pixel data belongs to a pixel. -/
theorem exists_colorOffset {base w h off : Nat} (hlow : base ≤ off) (hhigh : off < base + w * h * 3) :
    ∃ x y, x < w ∧ y < h ∧ colorOffset base w h x y ≤ off ∧ off < colorOffset base w h x y + 3 := by
  obtain ⟨k, hk⟩ : ∃ k, base + k * 3 ≤ off ∧ off < base + k * 3 + 3 := ⟨(off - base) / 3, by omega, by omega⟩
  have hlt : k < w * h := by omega
  have hw : 0 < w := Nat.pos_of_mul_pos_right (Nat.zero_lt_of_lt hlt)
  obtain ⟨row, x, hrow, hx, rfl⟩ : ∃ row x, row < h ∧ x < w ∧ row * w + x = k :=
    ⟨k / w, k % w, Nat.div_lt_of_lt_mul hlt, Nat.mod_lt _ hw, Nat.div_add_mod' k w⟩
  have hflip : h - 1 - (h - 1 - row) = row := by omega
  refine ⟨x, h - 1 - row, hx, by omega, ?_⟩
  rw [colorOffset, hflip]
  omega

/-- Three bytes inside the file, as they are read one by one. -/
theorem fileBytes_eq_take {f : List Byte} {off : Nat} (h : off + 3 ≤ f.length) :
    [fileByte f off, fileByte f (off + 1), fileByte f (off + 2)] = (f.drop off).take 3 := by
  rw [List.drop_eq_getElem_cons (by omega), List.drop_eq_getElem_cons (by omega), List.drop_eq_getElem_cons (by omega),
    fileByte_of_lt, fileByte_of_lt, fileByte_of_lt]
  rfl

/-- What a save of a colour image just loaded writes: the two headers and the pixels, as they stand in the file. -/
theorem saveCells_of_loadColor {cap : Nat} {f : List Byte} {img : Loaded} (hload : loadColor cap f = .ok img) :
    saveCells img.md img.width img.height (fun a => img.bytes.getD a 0) =
      fileCells f 0 14 ++ fileCells f 14 40 ++ (coords img.width img.height).flatMap fun p =>
        fileCells f (colorOffset (filePixelBase f) img.width img.height p.1 p.2) 3 := by
  obtain ⟨hfits, hbytes, hmd⟩ := loadColor_ok hload
  have hbase : filePixelBase (f.take 14) = filePixelBase f := leField_take (by decide)
  rw [hmd, hbytes, saveCells, hbase]
  refine congrArg (_ ++ ·) (List.flatMap_congr fun p hp => ?_)
  obtain ⟨x, y⟩ := p
  obtain ⟨hx, hy⟩ := mem_coords.1 hp
  have hpos : 0 < img.width * img.height := Nat.mul_pos (by omega) (by omega)
  have hin := colorOffset_add_le (filePixelBase f) hx hy
  have hred := colorBytes_getD (f := f) (base := filePixelBase f) hx hy (show 0 < 3 by decide)
  rw [Nat.add_zero] at hred
  dsimp only
  rw [fileCells, ← fileBytes_eq_take (by omega), hred, colorBytes_getD hx hy (by decide),
    colorBytes_getD hx hy (by decide)]
  rfl

/-- Settles O57: the save writes cells of the file, and its pixels cover the pixel data. -/
theorem colourFileRoundTrip : Obligations.ColourFileRoundTrip := by
  intro cap f img hload
  rw [saveCells_of_loadColor hload]
  simp only [List.mem_append, List.mem_flatMap, mem_fileCells]
  refine ⟨?_, fun hbase hlen off hoff => ⟨f[off], ?_⟩⟩
  · rintro d ((⟨-, -, hd⟩ | ⟨-, -, hd⟩) | ⟨p, -, -, -, hd⟩)
    all_goals exact hd
  · have hbyte : f[off]? = some f[off] := List.getElem?_eq_getElem hoff
    by_cases hhead : off < 54
    · left
      by_cases hfirst : off < 14
      · exact .inl ⟨by omega, by omega, hbyte⟩
      · exact .inr ⟨by omega, by omega, hbyte⟩
    · obtain ⟨x, y, hx, hy, hlow, hhigh⟩ := exists_colorOffset (base := 54) (Nat.le_of_not_lt hhead) (hlen ▸ hoff)
      rw [hbase]
      exact .inr ⟨(x, y), mem_coords.2 ⟨hx, hy⟩, hlow, hhigh, hbyte⟩

end Sys2Proof.Machine
end

section
/-! The rejection at issue: each check of 60_exceptions.md R232 by its condition, in the order of the codes (O9), and what a
rejected write to `CMD` leaves (O10). -/

namespace Sys2Proof.Machine

/-! ### One rule per check -/

/-- The format restriction by the register `FMT`: `GRAY` is for colour and `THRESH` for grayscale (60_exceptions.md R232). -/
theorem State.wrongFormat_iff {s : State} {i : Instr} :
    wrongFormat i s.format = true ↔ (i = .gray ∧ s.fmt = 0) ∨ ∃ imm, i = .thresh imm ∧ s.fmt = 1 := by
  have hcolour : s.format = .rgb24 ↔ s.fmt = 1 := State.format_eq_rgb24.trans (by bv_omega)
  rw [← State.format_eq_gray8, ← hcolour]
  cases i <;> cases s.format <;> simp [wrongFormat]

section
variable {s : State} {i : Instr}

theorem State.check_of_wrongFormat (h : wrongFormat i s.format = true) : s.check i = some .mode := if_pos h

theorem State.check_of_exceeds (hfmt : ¬ wrongFormat i s.format = true) (hsize : s.nBytes > s.pixcap) :
    s.check i = some .size := by
  rw [State.check, if_neg hfmt, if_pos hsize]

/-- The last two checks decide once the format is right and the image fits; they concern `CONV.CUSTOM` only. -/
theorem State.check_of_fits (hfmt : ¬ wrongFormat i s.format = true) (hsize : s.nBytes ≤ s.pixcap) :
    s.check i = if i = .convCustom then s.kernelError else none := by
  rw [State.check, if_neg hfmt, if_neg hsize.not_gt]

theorem State.kernelError_of_side_seven (h : s.kside = 7) : s.kernelError = some .kside := if_pos h

theorem State.kernelError_of_div_zero (hside : s.kside = 1 ∨ s.kside = 3 ∨ s.kside = 5) (hdiv : s.kdiv = 0) :
    s.kernelError = some .kdiv := by
  have hne : s.kside ≠ 7 := by rintro h; simp [h] at hside
  rw [State.kernelError, if_neg hne, if_pos ⟨hside, hdiv⟩]

theorem State.kernelError_eq_none (h : ¬ (s.kside = 7 ∨ ((s.kside = 1 ∨ s.kside = 3 ∨ s.kside = 5) ∧ s.kdiv = 0))) :
    s.kernelError = none := by
  obtain ⟨hside, hdiv⟩ := not_or.1 h
  rw [State.kernelError, if_neg hside, if_neg hdiv]

end

/-! ### The issue by the answer of the checks -/

theorem issue_reject {s : State} {w : Word} {i : Instr} {k : ErrCode} (hf : s.inFlight = none)
    (hd : decode w = .instr i) (hc : s.check i = some k) : issue w s = .next ((s.setCmd w).reject k) :=
  (issue_instr hd s).trans (exec_reject hf ((s.setCmd_check w i).trans hc))

theorem issue_accept {s : State} {w : Word} {i : Instr} (hf : s.inFlight = none)
    (hd : decode w = .instr i) (hc : s.check i = none) : issue w s = .next ((s.setCmd w).accept i) :=
  (issue_instr hd s).trans (exec_accept hf ((s.setCmd_check w i).trans hc))

/-- Settles O9: each clause's condition decides `State.check`, whose answer the issue stores. -/
theorem issueChecksInCodeOrder : Obligations.IssueChecksInCodeOrder := by
  intro s w hf
  refine ⟨fun hillegal => ?illegal, fun i hd => ⟨fun hgray => ?gray, fun imm hthresh => ?thresh, fun hngray hnthresh => ?_⟩⟩
  case illegal =>
    obtain ⟨why, hd⟩ := legal_eq_false_iff_decode.1 hillegal
    exact issue_illegal hd s
  case gray => exact issue_reject hf hd (State.check_of_wrongFormat (State.wrongFormat_iff.2 (.inl hgray)))
  case thresh => exact issue_reject hf hd (State.check_of_wrongFormat (State.wrongFormat_iff.2 (.inr ⟨imm, hthresh⟩)))
  have hfmt : ¬ wrongFormat i s.format = true := fun h => (State.wrongFormat_iff.1 h).elim hngray hnthresh
  refine ⟨fun hexceeds => issue_reject hf hd (State.check_of_exceeds hfmt hexceeds), fun hfits => ?_⟩
  have hcheck := State.check_of_fits hfmt hfits
  refine ⟨?kside, ?kdiv, fun hkernel => issue_accept hf hd (hcheck.trans ?accepted)⟩
  case kside =>
    rintro ⟨hcustom, hside⟩
    exact issue_reject hf hd (hcheck.trans ((if_pos hcustom).trans (State.kernelError_of_side_seven hside)))
  case kdiv =>
    rintro ⟨hcustom, hside, hdiv⟩
    exact issue_reject hf hd (hcheck.trans ((if_pos hcustom).trans (State.kernelError_of_div_zero hside hdiv)))
  case accepted =>
    by_cases hcustom : i = .convCustom
    · exact (if_pos hcustom).trans (State.kernelError_eq_none fun h => hkernel ⟨hcustom, h⟩)
    · exact if_neg hcustom

/-! ### What a rejection leaves -/

theorem ErrCode.code_mem (k : ErrCode) : k.code ∈ ([1, 2, 3, 4, 5] : List (BitVec 4)) := by
  cases k <;> decide

theorem Status.rejected_word_mem (k : ErrCode) :
    (Status.rejected k).word ∈ ([0x00000014, 0x00000024, 0x00000034, 0x00000044, 0x00000054] : List Word) := by
  cases k <;> decide

/-- Settles O10: an issue rejects or accepts, and `ERR` is 0 after an acceptance. -/
theorem rejectionChangesOnlyCmdAndStatus : Obligations.RejectionChangesOnlyCmdAndStatus := by
  intro s t w rest hr hs hstep herr
  rw [step_writeCmd hr hs] at hstep
  obtain ⟨k, rfl⟩ | ⟨i, -, -, rfl⟩ := issue_reject_or_accept (s := { s with script := rest }) hr.1 hstep
  · exact ⟨k.code, k.code_mem, rfl, rfl, rfl, hr.1, Status.rejected_word_mem k⟩
  · exact absurd herr Bool.false_ne_true

end Sys2Proof.Machine
end

section
/-! The host contract (70_reset_and_hazards.md R266, R269; O50): an access that keeps it is never a fault or a refusal, and the
script that remains keeps it too. -/

namespace Sys2Proof.Machine

/-- A script that keeps the contract with the busy window open keeps it with the window closed. -/
theorem contractKept_of_open {cap : Nat} {ops : List HostOp} (h : contractKept cap true ops = true) :
    contractKept cap false ops = true := by
  induction ops with
  | nil => rfl
  | cons op rest ih =>
    cases op with
    | regRead off =>
      simp only [contractKept, Bool.and_eq_true] at h ⊢
      obtain ⟨⟨hoff, -⟩, hrest⟩ := h
      exact ⟨⟨hoff, by simp⟩, ih hrest⟩
    | regWrite off v | pixRead a | pixWrite a b => simp [contractKept] at h
    | wait | reset => exact h

/-- A state keeps the contract whose script does so for a busy window at least as wide. -/
theorem State.contract_of_kept {t : State} {cap : Nat} {w : Bool} {ops : List HostOp}
    (h : contractKept cap w ops = true) (hcap : t.pixcap = cap) (hscript : t.script = ops)
    (hwindow : t.windowOpen = true → w = true) : t.contract = true := by
  subst hcap hscript
  rw [State.contract]
  cases ht : t.windowOpen with
  | true => exact hwindow ht ▸ h
  | false =>
    cases w with
    | true => exact contractKept_of_open h
    | false => exact h

/-- A register read never opens the busy window. -/
theorem State.windowOpen_of_readReg {s : State} {off : Nat} (h : (s.readReg off).windowOpen = true) :
    s.windowOpen = true := by
  rw [State.readReg_windowOpen] at h
  split at h
  · exact (Bool.and_eq_true_iff.1 h).1
  · exact h

theorem atPixel_of_lt {s : State} {a : Nat} {r : Host.Outcome State Fault Refusal} (h : a < s.pixcap) :
    atPixel s a r = r := if_pos h

/-- The issue of a word keeps the capacity and the script. -/
theorem issue_keeps_script {w : Word} {s t : State} (hf : s.inFlight = none) (h : issue w s = .next t) :
    t.pixcap = s.pixcap ∧ t.script = s.script := by
  obtain ⟨k, rfl⟩ | ⟨i, -, -, rfl⟩ := issue_reject_or_accept hf h <;> exact ⟨rfl, rfl⟩

/-- An access that keeps the contract answers a next state whose script keeps it. With the busy window closed nothing may be in
flight, as the invariant says. -/
theorem hostAccess_keeps_contract {op : HostOp} {s : State} (hidle : s.windowOpen = false → s.inFlight = none)
    (h : contractKept s.pixcap s.windowOpen (op :: s.script) = true) :
    ∃ t, hostAccess op s = .next t ∧ t.contract = true := by
  have ready : s.windowOpen = false → s.ready := fun hclosed => ⟨hidle hclosed, hclosed⟩
  cases op with
  | regRead off =>
    simp only [contractKept, Bool.and_eq_true, Bool.or_eq_true, beq_iff_eq, Bool.not_eq_true'] at h
    obtain ⟨⟨hoff, hstatus⟩, hrest⟩ := h
    have hnext : hostAccess (.regRead off) s = .next (s.readReg off) := by
      rw [hostAccess, atRegister_of_offset hoff]
      split
      · rfl
      · next hne => exact guarded_ready (ready (hstatus.resolve_left hne))
    exact ⟨_, hnext, State.contract_of_kept hrest (by simp) (by simp) State.windowOpen_of_readReg⟩
  | regWrite off v =>
    simp only [contractKept, Bool.and_eq_true, Bool.not_eq_true'] at h
    obtain ⟨⟨hoff, hclosed⟩, hrest⟩ := h
    have hready := ready hclosed
    rw [hostAccess, atRegister_of_offset hoff, guarded_ready hready]
    split
    · next h0 =>
      obtain ⟨t, ht⟩ := issue_next v s
      obtain ⟨hcap, hscript⟩ := issue_keeps_script hready.1 ht
      exact ⟨t, ht, State.contract_of_kept hrest hcap hscript fun _ => by simp [h0]⟩
    · exact ⟨_, rfl, State.contract_of_kept hrest (by simp) (by simp) (by simp [hclosed])⟩
  | pixRead a | pixWrite a b =>
    simp only [contractKept, Bool.and_eq_true, decide_eq_true_eq, Bool.not_eq_true'] at h
    obtain ⟨⟨ha, hclosed⟩, hrest⟩ := h
    rw [hostAccess, atPixel_of_lt ha, guarded_ready (ready hclosed)]
    exact ⟨_, rfl, State.contract_of_kept hrest rfl rfl (by simp [hclosed])⟩
  | wait =>
    rw [hostAccess]
    split
    · exact ⟨_, rfl, State.contract_of_kept h (by simp) rfl State.windowOpen_of_readReg⟩
    · next hbusy =>
      exact ⟨_, rfl, State.contract_of_kept (w := false) h (by simp) (by simp)
        (by simp [State.readReg_windowOpen, hbusy])⟩
  | reset => exact ⟨_, rfl, State.contract_of_kept (w := false) h rfl rfl (by simp)⟩

/-- From a state of the invariant whose script keeps the contract a step answers a next state whose script keeps it: a host access
by `hostAccess_keeps_contract`, and a completion leaves script and busy window alone. -/
theorem step_keeps_contract {s : State} (hinv : s.Inv) (h : s.contract = true) :
    ∃ t, step s = .next t ∧ t.contract = true := by
  obtain ⟨-, -, hidle⟩ | ⟨op, rest, hs, -, hhost⟩ | ⟨i, hf, -, hengine⟩ := step_cases s
  · exact ⟨s, hidle, h⟩
  · have hnone : s.windowOpen = false → s.inFlight = none := fun hclosed => by
      by_contra hf
      have hopen := hinv.windowInFlight (Option.isSome_iff_ne_none.2 hf)
      simp [hclosed] at hopen
    rw [State.contract, hs] at h
    obtain ⟨t, ht, hkept⟩ := hostAccess_keeps_contract (op := op) (s := { s.useTurn with script := rest })
      (by simpa using hnone) (by simpa using h)
    exact ⟨t, hhost.trans ht, hkept⟩
  · rw [exec_complete (j := i) (by simpa using hf)] at hengine
    exact ⟨_, hengine, State.contract_of_kept h (by simp) (by simp) (by simp)⟩

/-- Settles O50: `step_keeps_contract`, and O49 for the invariant. -/
theorem contractKeptMeansNoFault : Obligations.ContractKeptMeansNoFault := by
  intro s hinv hkept
  obtain ⟨t, hstep, ht⟩ := step_keeps_contract hinv hkept
  exact ⟨t, hstep, everyStepKeepsTheInvariant s t hinv hstep, ht⟩

end Sys2Proof.Machine
end

section
/-! The busy window (70_reset_and_hazards.md R266, O43): who opens and closes it, and what an access inside it is. -/

namespace Sys2Proof.Machine

/-- Inside the busy window a guarded access faults. -/
theorem guarded_of_windowOpen {s : State} {r : Host.Outcome State Fault Refusal} (h : s.windowOpen = true) :
    guarded s r = .fault .busyWindow := by
  simp [guarded, h]

/-- A read of `STATUS` is defined whenever the host moves. -/
theorem step_readStatus {s : State} {rest : List HostOp} (h : s.hostTurn) (hs : s.script = .regRead 0x004 :: rest) :
    step s = .next (State.readReg { s.useTurn with script := rest } 0x004) := by
  rw [step_host h hs]
  exact atRegister_of_offset (by decide)

section
variable {s : State} {rest : List HostOp} (h : s.hostTurn) (hw : s.windowOpen = true)
include h hw

theorem step_regRead_inWindow {off : Nat} (hoff : registerOffset off = true) (hne : off ≠ 0x004)
    (hs : s.script = .regRead off :: rest) : step s = .fault .busyWindow := by
  rw [step_host h hs, hostAccess, atRegister_of_offset hoff, if_neg hne, guarded_of_windowOpen (by simpa using hw)]

theorem step_regWrite_inWindow {off : Nat} {v : Word} (hoff : registerOffset off = true)
    (hs : s.script = .regWrite off v :: rest) : step s = .fault .busyWindow := by
  rw [step_host h hs, hostAccess, atRegister_of_offset hoff, guarded_of_windowOpen (by simpa using hw)]

theorem step_pixel_inWindow {a : Nat} {op : HostOp} (hop : op = .pixRead a ∨ ∃ b, op = .pixWrite a b)
    (ha : a < s.pixcap) (hs : s.script = op :: rest) : step s = .fault .busyWindow := by
  rw [step_host h hs]
  obtain rfl | ⟨b, rfl⟩ := hop <;>
    rw [hostAccess, atPixel_of_lt (by simpa using ha), guarded_of_windowOpen (by simpa using hw)]

end

/-- Settles O43: an issue rejects or accepts, a completion leaves the window alone, and inside it every guarded access faults. -/
theorem busyWindowAllowsOnlyStatusReads : Obligations.BusyWindowAllowsOnlyStatusReads := by
  refine ⟨fun s t w hf hissue => ?issue, fun s t i hf hexec => ?completion, fun s rest h hw => ⟨fun hs => ?status,
    fun off hal hlt hne => step_regRead_inWindow h hw (registerOffset_iff.2 ⟨hal, hlt⟩) hne,
    fun off v hal hlt => step_regWrite_inWindow h hw (registerOffset_iff.2 ⟨hal, hlt⟩),
    fun a ha => step_pixel_inWindow h hw (.inl rfl) ha,
    fun a b ha => step_pixel_inWindow h hw (.inr ⟨b, rfl⟩) ha⟩⟩
  case issue =>
    obtain ⟨k, rfl⟩ | ⟨i, -, -, rfl⟩ := issue_reject_or_accept hf hissue
    · exact ⟨by simp [hf], fun _ => rfl⟩
    · exact ⟨fun _ => rfl, by simp⟩
  case completion =>
    obtain rfl := Host.Outcome.next.inj ((exec_complete hf).symm.trans hexec)
    simp
  case status =>
    exact ⟨_, step_readStatus h hs, by simp [State.regValue_status], by simp [State.readReg_windowOpen, hw], by simp⟩

end Sys2Proof.Machine
end

section
/-! Reset while the machine runs, and the end of a run (70_reset_and_hazards.md R260, R261, R270; O46, O47). -/

namespace Sys2Proof.Machine

/-- A reset is performed whenever the host moves, also with a command in flight. -/
theorem step_reset {s : State} {rest : List HostOp} (h : s.hostTurn) (hs : s.script = .reset :: rest) :
    step s = .next (State.platformReset { s.useTurn with script := rest }) :=
  step_host h hs

/-- Settles O46: `step_reset`, which leaves 0 in every register and no byte with a value. -/
theorem resetAbandonsTheCommand : Obligations.ResetAbandonsTheCommand := by
  intro s rest h hs
  exact ⟨_, step_reset h hs, Status.word_values.1, rfl, fun _ => rfl, rfl, rfl, rfl, rfl, rfl, rfl,
    by simp, by simp, by simp, rfl, by simp⟩

theorem State.ended_iff {s : State} : s.ended = true ↔ s.script = [] ∧ s.inFlight = none := by
  simp [State.ended]

/-- Once the run has ended a step changes nothing. -/
theorem step_ended {s : State} (h : s.ended = true) : step s = .next s := by
  obtain ⟨hs, hf⟩ := State.ended_iff.1 h
  obtain ⟨-, -, hidle⟩ | ⟨op, rest, hs', -⟩ | ⟨i, hf', -⟩ := step_cases s
  · exact hidle
  · simp [hs] at hs'
  · simp [hf] at hf'

/-- Settles O47: `step_ended`, and with no access left the engine moves and completes (O13). -/
theorem runEndsWhenScriptAndEngineRest : Obligations.RunEndsWhenScriptAndEngineRest := by
  refine ⟨fun s => step_ended, fun s i hs hf => ?_⟩
  obtain ⟨t, hstep, -, hword, hnone, -, hscript, -⟩ := completionIsOneStepEndingDone s i hf ⟨by simp [hf], .inl hs⟩
  exact ⟨t, hstep, State.ended_iff.2 ⟨hscript.trans hs, hnone⟩, hword⟩

end Sys2Proof.Machine
end
